-- ==== Sys2Proof/Word.lean ====
section
/-! DEFINITION. The Word of the machine and the one narrowing of an integer to it (10_state.md R10, 00_scope.md R3). -/

namespace Sys2Proof

/-- A Word: 16 bits, the content of a register or of a RAM cell (R10).  `u(w)` is `w.toNat` and `s(w)` is
`w.toInt` (R3): two views of one bit pattern. -/
abbrev Word := BitVec 16

/-- A byte: half of a Word in the serialised image (20_memory.md R33) and in the model's memory list (log 1).
No instruction can address one (R31). -/
abbrev Byte := BitVec 8

/-- `trunc16(n)`: `n` modulo 65536, as a Word, for any integer `n` (R3). -/
def trunc16 (n : Int) : Word := BitVec.ofInt 16 n

end Sys2Proof
end

