-- ==== Sys2Proof/Syntax.lean ====
section
/-! DEFINITION. The registers' names, the opcodes, and the instructions: one constructor of `Instr` for each row
of spec/opcode_table.json, which has every opcode value in its TEENY and its LONG form (30_encoding.md R50, R56,
R58, R63).  A constructor holds every field of its words, the ignored ones too (R57), so that decoding loses
nothing (log 28).  An immediate is the signed integer it stands for (R52, R53). -/

namespace Sys2Proof

/-- The eight registers, by index 0 to 7 (10_state.md R11; the names of indices 1 and 3 to 7 are decision D1,
log 15). -/
inductive Reg where
  | pc | sp | rz | ra | rb | rc | rd | re
deriving DecidableEq, Repr

/-- The 24 defined opcodes and the 8 reserved opcode values (30_encoding.md R56, R58). -/
inductive Opcode where
  | set | lod | str | psh | pop | bts | btc | btf | cal | add | sub | mpy
  | div | mod | and | or | xor | shf | rot | neg | cmp | jmp | djz | dly
  | reserved24 | reserved25 | reserved26 | reserved27 | reserved28 | reserved29 | reserved30 | reserved31
deriving DecidableEq, Repr

/-- An instruction, one constructor a row of the opcode table. -/
inductive Instr where
  /-- set (opcode 0), TEENY (R80). -/
  | setTeeny (reg1 reg2 : Reg) (imm : Int)
  /-- set (opcode 0), LONG (R80). -/
  | setLong (reg1 reg2 : Reg) (low4 : BitVec 4) (imm : Int)
  /-- lod (opcode 1), TEENY (R81). -/
  | lodTeeny (reg1 reg2 : Reg) (imm : Int)
  /-- lod (opcode 1), LONG (R81). -/
  | lodLong (reg1 reg2 : Reg) (low4 : BitVec 4) (imm : Int)
  /-- str (opcode 2), TEENY (R82). -/
  | strTeeny (reg1 reg2 : Reg) (imm : Int)
  /-- str (opcode 2), LONG (R82). -/
  | strLong (reg1 reg2 : Reg) (low4 : BitVec 4) (imm : Int)
  /-- psh (opcode 3), TEENY (R85). -/
  | pshTeeny (reg1 reg2 : Reg) (imm : Int)
  /-- psh (opcode 3), LONG (R85). -/
  | pshLong (reg1 reg2 : Reg) (low4 : BitVec 4) (imm : Int)
  /-- pop (opcode 4), TEENY (R86). -/
  | popTeeny (reg1 reg2 : Reg) (imm : Int)
  /-- pop (opcode 4), LONG (R86). -/
  | popLong (reg1 reg2 : Reg) (low4 : BitVec 4) (imm : Int)
  /-- bts (opcode 5), TEENY (R90). -/
  | btsTeeny (reg1 reg2 : Reg) (imm : Int)
  /-- bts (opcode 5), LONG (R90). -/
  | btsLong (reg1 reg2 : Reg) (low4 : BitVec 4) (imm : Int)
  /-- btc (opcode 6), TEENY (R91). -/
  | btcTeeny (reg1 reg2 : Reg) (imm : Int)
  /-- btc (opcode 6), LONG (R91). -/
  | btcLong (reg1 reg2 : Reg) (low4 : BitVec 4) (imm : Int)
  /-- btf (opcode 7), TEENY (R92). -/
  | btfTeeny (reg1 reg2 : Reg) (imm : Int)
  /-- btf (opcode 7), LONG (R92). -/
  | btfLong (reg1 reg2 : Reg) (low4 : BitVec 4) (imm : Int)
  /-- cal (opcode 8), TEENY (R87). -/
  | calTeeny (reg1 reg2 : Reg) (imm : Int)
  /-- cal (opcode 8), LONG (R87). -/
  | calLong (reg1 reg2 : Reg) (low4 : BitVec 4) (imm : Int)
  /-- add (opcode 9), TEENY (R95). -/
  | addTeeny (reg1 reg2 : Reg) (imm : Int)
  /-- add (opcode 9), LONG (R95). -/
  | addLong (reg1 reg2 : Reg) (low4 : BitVec 4) (imm : Int)
  /-- sub (opcode 10), TEENY (R96). -/
  | subTeeny (reg1 reg2 : Reg) (imm : Int)
  /-- sub (opcode 10), LONG (R96). -/
  | subLong (reg1 reg2 : Reg) (low4 : BitVec 4) (imm : Int)
  /-- mpy (opcode 11), TEENY (R97). -/
  | mpyTeeny (reg1 reg2 : Reg) (imm : Int)
  /-- mpy (opcode 11), LONG (R97). -/
  | mpyLong (reg1 reg2 : Reg) (low4 : BitVec 4) (imm : Int)
  /-- div (opcode 12), TEENY (R98). -/
  | divTeeny (reg1 reg2 : Reg) (imm : Int)
  /-- div (opcode 12), LONG (R98). -/
  | divLong (reg1 reg2 : Reg) (low4 : BitVec 4) (imm : Int)
  /-- mod (opcode 13), TEENY (R99). -/
  | modTeeny (reg1 reg2 : Reg) (imm : Int)
  /-- mod (opcode 13), LONG (R99). -/
  | modLong (reg1 reg2 : Reg) (low4 : BitVec 4) (imm : Int)
  /-- and (opcode 14), TEENY (R100). -/
  | andTeeny (reg1 reg2 : Reg) (imm : Int)
  /-- and (opcode 14), LONG (R100). -/
  | andLong (reg1 reg2 : Reg) (low4 : BitVec 4) (imm : Int)
  /-- or (opcode 15), TEENY (R101). -/
  | orTeeny (reg1 reg2 : Reg) (imm : Int)
  /-- or (opcode 15), LONG (R101). -/
  | orLong (reg1 reg2 : Reg) (low4 : BitVec 4) (imm : Int)
  /-- xor (opcode 16), TEENY (R102). -/
  | xorTeeny (reg1 reg2 : Reg) (imm : Int)
  /-- xor (opcode 16), LONG (R102). -/
  | xorLong (reg1 reg2 : Reg) (low4 : BitVec 4) (imm : Int)
  /-- shf (opcode 17), TEENY (R107). -/
  | shfTeeny (reg1 reg2 : Reg) (imm : Int)
  /-- shf (opcode 17), LONG (R107). -/
  | shfLong (reg1 reg2 : Reg) (low4 : BitVec 4) (imm : Int)
  /-- rot (opcode 18), TEENY (R108). -/
  | rotTeeny (reg1 reg2 : Reg) (imm : Int)
  /-- rot (opcode 18), LONG (R108). -/
  | rotLong (reg1 reg2 : Reg) (low4 : BitVec 4) (imm : Int)
  /-- neg (opcode 19), TEENY (R109). -/
  | negTeeny (reg1 reg2 : Reg) (imm : Int)
  /-- neg (opcode 19), LONG (R109). -/
  | negLong (reg1 reg2 : Reg) (low4 : BitVec 4) (imm : Int)
  /-- cmp (opcode 20), TEENY (R110). -/
  | cmpTeeny (reg1 reg2 : Reg) (imm : Int)
  /-- cmp (opcode 20), LONG (R110). -/
  | cmpLong (reg1 reg2 : Reg) (low4 : BitVec 4) (imm : Int)
  /-- jmp (opcode 21), TEENY: condition bits and immediate are read from the same low-4 field (R55, R113). -/
  | jmpTeeny (reg1 reg2 : Reg) (cond : BitVec 3) (imm : Int)
  /-- jmp (opcode 21), LONG: low-4 is an ignored bit 3 and the condition bits (R54, R57, R113). -/
  | jmpLong (reg1 reg2 : Reg) (bit3 : Bool) (cond : BitVec 3) (imm : Int)
  /-- djz (opcode 22), TEENY (R114). -/
  | djzTeeny (reg1 reg2 : Reg) (imm : Int)
  /-- djz (opcode 22), LONG (R114). -/
  | djzLong (reg1 reg2 : Reg) (low4 : BitVec 4) (imm : Int)
  /-- dly (opcode 23), TEENY (R115). -/
  | dlyTeeny (reg1 reg2 : Reg) (imm : Int)
  /-- dly (opcode 23), LONG (R115). -/
  | dlyLong (reg1 reg2 : Reg) (low4 : BitVec 4) (imm : Int)
  /-- reserved24 (opcode 24), TEENY (R118). -/
  | reserved24Teeny (reg1 reg2 : Reg) (imm : Int)
  /-- reserved24 (opcode 24), LONG (R118). -/
  | reserved24Long (reg1 reg2 : Reg) (low4 : BitVec 4) (imm : Int)
  /-- reserved25 (opcode 25), TEENY (R118). -/
  | reserved25Teeny (reg1 reg2 : Reg) (imm : Int)
  /-- reserved25 (opcode 25), LONG (R118). -/
  | reserved25Long (reg1 reg2 : Reg) (low4 : BitVec 4) (imm : Int)
  /-- reserved26 (opcode 26), TEENY (R118). -/
  | reserved26Teeny (reg1 reg2 : Reg) (imm : Int)
  /-- reserved26 (opcode 26), LONG (R118). -/
  | reserved26Long (reg1 reg2 : Reg) (low4 : BitVec 4) (imm : Int)
  /-- reserved27 (opcode 27), TEENY (R118). -/
  | reserved27Teeny (reg1 reg2 : Reg) (imm : Int)
  /-- reserved27 (opcode 27), LONG (R118). -/
  | reserved27Long (reg1 reg2 : Reg) (low4 : BitVec 4) (imm : Int)
  /-- reserved28 (opcode 28), TEENY (R118). -/
  | reserved28Teeny (reg1 reg2 : Reg) (imm : Int)
  /-- reserved28 (opcode 28), LONG (R118). -/
  | reserved28Long (reg1 reg2 : Reg) (low4 : BitVec 4) (imm : Int)
  /-- reserved29 (opcode 29), TEENY (R118). -/
  | reserved29Teeny (reg1 reg2 : Reg) (imm : Int)
  /-- reserved29 (opcode 29), LONG (R118). -/
  | reserved29Long (reg1 reg2 : Reg) (low4 : BitVec 4) (imm : Int)
  /-- reserved30 (opcode 30), TEENY (R118). -/
  | reserved30Teeny (reg1 reg2 : Reg) (imm : Int)
  /-- reserved30 (opcode 30), LONG (R118). -/
  | reserved30Long (reg1 reg2 : Reg) (low4 : BitVec 4) (imm : Int)
  /-- reserved31 (opcode 31), TEENY (R118). -/
  | reserved31Teeny (reg1 reg2 : Reg) (imm : Int)
  /-- reserved31 (opcode 31), LONG (R118). -/
  | reserved31Long (reg1 reg2 : Reg) (low4 : BitVec 4) (imm : Int)
deriving DecidableEq, Repr

/-- The fields of an instruction's words (30_encoding.md R51): the layout is one for all instructions. -/
structure Fields where
  opcode : Opcode
  teeny  : Bool
  reg1   : Reg
  reg2   : Reg
  low4   : BitVec 4
  imm    : Int
deriving DecidableEq, Repr

/-- What each constructor puts in the fields of its words.  In a TEENY form low-4 is the immediate (R52). -/
def Instr.fields : Instr → Fields
  | .setTeeny a b v => ⟨.set, true, a, b, BitVec.ofInt 4 v, v⟩
  | .setLong a b l v => ⟨.set, false, a, b, l, v⟩
  | .lodTeeny a b v => ⟨.lod, true, a, b, BitVec.ofInt 4 v, v⟩
  | .lodLong a b l v => ⟨.lod, false, a, b, l, v⟩
  | .strTeeny a b v => ⟨.str, true, a, b, BitVec.ofInt 4 v, v⟩
  | .strLong a b l v => ⟨.str, false, a, b, l, v⟩
  | .pshTeeny a b v => ⟨.psh, true, a, b, BitVec.ofInt 4 v, v⟩
  | .pshLong a b l v => ⟨.psh, false, a, b, l, v⟩
  | .popTeeny a b v => ⟨.pop, true, a, b, BitVec.ofInt 4 v, v⟩
  | .popLong a b l v => ⟨.pop, false, a, b, l, v⟩
  | .btsTeeny a b v => ⟨.bts, true, a, b, BitVec.ofInt 4 v, v⟩
  | .btsLong a b l v => ⟨.bts, false, a, b, l, v⟩
  | .btcTeeny a b v => ⟨.btc, true, a, b, BitVec.ofInt 4 v, v⟩
  | .btcLong a b l v => ⟨.btc, false, a, b, l, v⟩
  | .btfTeeny a b v => ⟨.btf, true, a, b, BitVec.ofInt 4 v, v⟩
  | .btfLong a b l v => ⟨.btf, false, a, b, l, v⟩
  | .calTeeny a b v => ⟨.cal, true, a, b, BitVec.ofInt 4 v, v⟩
  | .calLong a b l v => ⟨.cal, false, a, b, l, v⟩
  | .addTeeny a b v => ⟨.add, true, a, b, BitVec.ofInt 4 v, v⟩
  | .addLong a b l v => ⟨.add, false, a, b, l, v⟩
  | .subTeeny a b v => ⟨.sub, true, a, b, BitVec.ofInt 4 v, v⟩
  | .subLong a b l v => ⟨.sub, false, a, b, l, v⟩
  | .mpyTeeny a b v => ⟨.mpy, true, a, b, BitVec.ofInt 4 v, v⟩
  | .mpyLong a b l v => ⟨.mpy, false, a, b, l, v⟩
  | .divTeeny a b v => ⟨.div, true, a, b, BitVec.ofInt 4 v, v⟩
  | .divLong a b l v => ⟨.div, false, a, b, l, v⟩
  | .modTeeny a b v => ⟨.mod, true, a, b, BitVec.ofInt 4 v, v⟩
  | .modLong a b l v => ⟨.mod, false, a, b, l, v⟩
  | .andTeeny a b v => ⟨.and, true, a, b, BitVec.ofInt 4 v, v⟩
  | .andLong a b l v => ⟨.and, false, a, b, l, v⟩
  | .orTeeny a b v => ⟨.or, true, a, b, BitVec.ofInt 4 v, v⟩
  | .orLong a b l v => ⟨.or, false, a, b, l, v⟩
  | .xorTeeny a b v => ⟨.xor, true, a, b, BitVec.ofInt 4 v, v⟩
  | .xorLong a b l v => ⟨.xor, false, a, b, l, v⟩
  | .shfTeeny a b v => ⟨.shf, true, a, b, BitVec.ofInt 4 v, v⟩
  | .shfLong a b l v => ⟨.shf, false, a, b, l, v⟩
  | .rotTeeny a b v => ⟨.rot, true, a, b, BitVec.ofInt 4 v, v⟩
  | .rotLong a b l v => ⟨.rot, false, a, b, l, v⟩
  | .negTeeny a b v => ⟨.neg, true, a, b, BitVec.ofInt 4 v, v⟩
  | .negLong a b l v => ⟨.neg, false, a, b, l, v⟩
  | .cmpTeeny a b v => ⟨.cmp, true, a, b, BitVec.ofInt 4 v, v⟩
  | .cmpLong a b l v => ⟨.cmp, false, a, b, l, v⟩
  | .jmpTeeny a b _ v => ⟨.jmp, true, a, b, BitVec.ofInt 4 v, v⟩
  | .jmpLong a b x c v => ⟨.jmp, false, a, b, BitVec.ofBool x ++ c, v⟩
  | .djzTeeny a b v => ⟨.djz, true, a, b, BitVec.ofInt 4 v, v⟩
  | .djzLong a b l v => ⟨.djz, false, a, b, l, v⟩
  | .dlyTeeny a b v => ⟨.dly, true, a, b, BitVec.ofInt 4 v, v⟩
  | .dlyLong a b l v => ⟨.dly, false, a, b, l, v⟩
  | .reserved24Teeny a b v => ⟨.reserved24, true, a, b, BitVec.ofInt 4 v, v⟩
  | .reserved24Long a b l v => ⟨.reserved24, false, a, b, l, v⟩
  | .reserved25Teeny a b v => ⟨.reserved25, true, a, b, BitVec.ofInt 4 v, v⟩
  | .reserved25Long a b l v => ⟨.reserved25, false, a, b, l, v⟩
  | .reserved26Teeny a b v => ⟨.reserved26, true, a, b, BitVec.ofInt 4 v, v⟩
  | .reserved26Long a b l v => ⟨.reserved26, false, a, b, l, v⟩
  | .reserved27Teeny a b v => ⟨.reserved27, true, a, b, BitVec.ofInt 4 v, v⟩
  | .reserved27Long a b l v => ⟨.reserved27, false, a, b, l, v⟩
  | .reserved28Teeny a b v => ⟨.reserved28, true, a, b, BitVec.ofInt 4 v, v⟩
  | .reserved28Long a b l v => ⟨.reserved28, false, a, b, l, v⟩
  | .reserved29Teeny a b v => ⟨.reserved29, true, a, b, BitVec.ofInt 4 v, v⟩
  | .reserved29Long a b l v => ⟨.reserved29, false, a, b, l, v⟩
  | .reserved30Teeny a b v => ⟨.reserved30, true, a, b, BitVec.ofInt 4 v, v⟩
  | .reserved30Long a b l v => ⟨.reserved30, false, a, b, l, v⟩
  | .reserved31Teeny a b v => ⟨.reserved31, true, a, b, BitVec.ofInt 4 v, v⟩
  | .reserved31Long a b l v => ⟨.reserved31, false, a, b, l, v⟩

end Sys2Proof
end

