-- ==== Sys2Proof/WellFormed.lean ====
section
/-! DEFINITION. Which instruction terms stand for words: the immediate is one its form can hold (30_encoding.md
R52, R53) and a TEENY jump's condition bits are the low bits of its immediate (R55).  Every pair of words decodes
to such a term (R60). -/

namespace Sys2Proof

/-- TEENY_RANGE (00_scope.md R2): the immediates a one-word instruction holds (R52). -/
def fitsTeeny (v : Int) : Bool := decide (-8 ≤ v) && decide (v ≤ 7)

/-- The immediates a second Word holds, read as signed (R53). -/
def fitsLong (v : Int) : Bool := decide (-32768 ≤ v) && decide (v ≤ 32767)

/-- The immediate fits the instruction's form (R52, R53). -/
def Instr.immFits (i : Instr) : Bool :=
  if i.fields.teeny then fitsTeeny i.fields.imm else fitsLong i.fields.imm

/-- A TEENY jump has one low-4 field for both its immediate and its condition bits (R55). -/
def Instr.condAgrees : Instr → Bool
  | .jmpTeeny _ _ cond imm => cond == BitVec.ofInt 3 imm
  | _ => true

/-- The instruction stands for words of the machine. -/
def Instr.wellFormed (i : Instr) : Bool := i.immFits && i.condAgrees

end Sys2Proof
end

