-- ==== Sys2Proof/Decode.lean ====
section
/-! DEFINITION. The instruction_decoder and the words of an instruction (30_encoding.md): field extraction from
the instruction word, `sext4`, the opcode map, the decoder (total: R60) over words and over the bytes of an image,
and after it the encoder. -/

namespace Sys2Proof

/-! ## The fields of the instruction word (R51) -/

/-- Bits 15:11, the opcode field. -/
def opcodeField (w : Word) : BitVec 5 := w.extractLsb' 11 5

/-- Bit 10, the teeny flag: it alone tells the length (R50). -/
def teenyField (w : Word) : Bool := w.getLsbD 10

/-- Bits 9:7. -/
def reg1Field (w : Word) : BitVec 3 := w.extractLsb' 7 3

/-- Bits 6:4. -/
def reg2Field (w : Word) : BitVec 3 := w.extractLsb' 4 3

/-- Bits 3:0, the low-4 field. -/
def low4Field (w : Word) : BitVec 4 := w.extractLsb' 0 4

/-! ## Register indices, opcode values, immediates -/

/-- The register of an index (10_state.md R11). -/
def Reg.ofIndex (n : BitVec 3) : Reg :=
  match n.toNat with
  | 0 => .pc
  | 1 => .sp
  | 2 => .rz
  | 3 => .ra
  | 4 => .rb
  | 5 => .rc
  | 6 => .rd
  | _ => .re

/-- The index of a register (10_state.md R11). -/
def Reg.index : Reg → BitVec 3
  | .pc => 0
  | .sp => 1
  | .rz => 2
  | .ra => 3
  | .rb => 4
  | .rc => 5
  | .rd => 6
  | .re => 7

/-- The opcode map (30_encoding.md R56, R58): selected by bits 15:11 alone. -/
def Opcode.ofCode (c : BitVec 5) : Opcode :=
  match c.toNat with
  | 0 => .set
  | 1 => .lod
  | 2 => .str
  | 3 => .psh
  | 4 => .pop
  | 5 => .bts
  | 6 => .btc
  | 7 => .btf
  | 8 => .cal
  | 9 => .add
  | 10 => .sub
  | 11 => .mpy
  | 12 => .div
  | 13 => .mod
  | 14 => .and
  | 15 => .or
  | 16 => .xor
  | 17 => .shf
  | 18 => .rot
  | 19 => .neg
  | 20 => .cmp
  | 21 => .jmp
  | 22 => .djz
  | 23 => .dly
  | 24 => .reserved24
  | 25 => .reserved25
  | 26 => .reserved26
  | 27 => .reserved27
  | 28 => .reserved28
  | 29 => .reserved29
  | 30 => .reserved30
  | _ => .reserved31

/-- The opcode map, from the name to the code (30_encoding.md R56, R58). -/
def Opcode.code : Opcode → BitVec 5
  | .set => 0
  | .lod => 1
  | .str => 2
  | .psh => 3
  | .pop => 4
  | .bts => 5
  | .btc => 6
  | .btf => 7
  | .cal => 8
  | .add => 9
  | .sub => 10
  | .mpy => 11
  | .div => 12
  | .mod => 13
  | .and => 14
  | .or => 15
  | .xor => 16
  | .shf => 17
  | .rot => 18
  | .neg => 19
  | .cmp => 20
  | .jmp => 21
  | .djz => 22
  | .dly => 23
  | .reserved24 => 24
  | .reserved25 => 25
  | .reserved26 => 26
  | .reserved27 => 27
  | .reserved28 => 28
  | .reserved29 => 29
  | .reserved30 => 30
  | .reserved31 => 31

/-- `sext4(n)`: sign extension of the 4-bit field to an integer in -8..7 (00_scope.md R4, 30_encoding.md R52). -/
def sext4 (n : BitVec 4) : Int :=
  if n.toNat < 8 then (n.toNat : Int) else (n.toNat : Int) - 16

/-- The LONG immediate: the second Word read as signed (30_encoding.md R53). -/
def imm16 (w : Word) : Int := w.toInt

/-! ## The decoder -/

/-- The TEENY instruction of an opcode and its fields: the immediate is low-4 sign-extended (R52), and a jump
takes its condition bits from bits 2:0 of the same field (R54, R55). -/
def Instr.ofTeeny (op : Opcode) (a b : Reg) (low4 : BitVec 4) : Instr :=
  match op with
  | .set => .setTeeny a b (sext4 low4)
  | .lod => .lodTeeny a b (sext4 low4)
  | .str => .strTeeny a b (sext4 low4)
  | .psh => .pshTeeny a b (sext4 low4)
  | .pop => .popTeeny a b (sext4 low4)
  | .bts => .btsTeeny a b (sext4 low4)
  | .btc => .btcTeeny a b (sext4 low4)
  | .btf => .btfTeeny a b (sext4 low4)
  | .cal => .calTeeny a b (sext4 low4)
  | .add => .addTeeny a b (sext4 low4)
  | .sub => .subTeeny a b (sext4 low4)
  | .mpy => .mpyTeeny a b (sext4 low4)
  | .div => .divTeeny a b (sext4 low4)
  | .mod => .modTeeny a b (sext4 low4)
  | .and => .andTeeny a b (sext4 low4)
  | .or => .orTeeny a b (sext4 low4)
  | .xor => .xorTeeny a b (sext4 low4)
  | .shf => .shfTeeny a b (sext4 low4)
  | .rot => .rotTeeny a b (sext4 low4)
  | .neg => .negTeeny a b (sext4 low4)
  | .cmp => .cmpTeeny a b (sext4 low4)
  | .jmp => .jmpTeeny a b (low4.extractLsb' 0 3) (sext4 low4)
  | .djz => .djzTeeny a b (sext4 low4)
  | .dly => .dlyTeeny a b (sext4 low4)
  | .reserved24 => .reserved24Teeny a b (sext4 low4)
  | .reserved25 => .reserved25Teeny a b (sext4 low4)
  | .reserved26 => .reserved26Teeny a b (sext4 low4)
  | .reserved27 => .reserved27Teeny a b (sext4 low4)
  | .reserved28 => .reserved28Teeny a b (sext4 low4)
  | .reserved29 => .reserved29Teeny a b (sext4 low4)
  | .reserved30 => .reserved30Teeny a b (sext4 low4)
  | .reserved31 => .reserved31Teeny a b (sext4 low4)

/-- The LONG instruction of an opcode, its fields and its second Word (R53); a jump takes its condition bits from
bits 2:0 of low-4 (R54). -/
def Instr.ofLong (op : Opcode) (a b : Reg) (low4 : BitVec 4) (w2 : Word) : Instr :=
  match op with
  | .set => .setLong a b low4 (imm16 w2)
  | .lod => .lodLong a b low4 (imm16 w2)
  | .str => .strLong a b low4 (imm16 w2)
  | .psh => .pshLong a b low4 (imm16 w2)
  | .pop => .popLong a b low4 (imm16 w2)
  | .bts => .btsLong a b low4 (imm16 w2)
  | .btc => .btcLong a b low4 (imm16 w2)
  | .btf => .btfLong a b low4 (imm16 w2)
  | .cal => .calLong a b low4 (imm16 w2)
  | .add => .addLong a b low4 (imm16 w2)
  | .sub => .subLong a b low4 (imm16 w2)
  | .mpy => .mpyLong a b low4 (imm16 w2)
  | .div => .divLong a b low4 (imm16 w2)
  | .mod => .modLong a b low4 (imm16 w2)
  | .and => .andLong a b low4 (imm16 w2)
  | .or => .orLong a b low4 (imm16 w2)
  | .xor => .xorLong a b low4 (imm16 w2)
  | .shf => .shfLong a b low4 (imm16 w2)
  | .rot => .rotLong a b low4 (imm16 w2)
  | .neg => .negLong a b low4 (imm16 w2)
  | .cmp => .cmpLong a b low4 (imm16 w2)
  | .jmp => .jmpLong a b low4.msb (low4.extractLsb' 0 3) (imm16 w2)
  | .djz => .djzLong a b low4 (imm16 w2)
  | .dly => .dlyLong a b low4 (imm16 w2)
  | .reserved24 => .reserved24Long a b low4 (imm16 w2)
  | .reserved25 => .reserved25Long a b low4 (imm16 w2)
  | .reserved26 => .reserved26Long a b low4 (imm16 w2)
  | .reserved27 => .reserved27Long a b low4 (imm16 w2)
  | .reserved28 => .reserved28Long a b low4 (imm16 w2)
  | .reserved29 => .reserved29Long a b low4 (imm16 w2)
  | .reserved30 => .reserved30Long a b low4 (imm16 w2)
  | .reserved31 => .reserved31Long a b low4 (imm16 w2)

/-- The instruction of a first Word whose teeny flag is set (R50, R52). -/
def decodeTeeny (w1 : Word) : Instr :=
  Instr.ofTeeny (Opcode.ofCode (opcodeField w1)) (Reg.ofIndex (reg1Field w1)) (Reg.ofIndex (reg2Field w1))
    (low4Field w1)

/-- The instruction of a first Word whose teeny flag is clear, with the Word that follows it (R50, R53). -/
def decodeLong (w1 w2 : Word) : Instr :=
  Instr.ofLong (Opcode.ofCode (opcodeField w1)) (Reg.ofIndex (reg1Field w1)) (Reg.ofIndex (reg2Field w1))
    (low4Field w1) w2

/-- The instruction at an address that holds `w1`, with `w2` in the next Word: every pair has one (R60). -/
def decodeWords (w1 w2 : Word) : Instr :=
  if teenyField w1 then decodeTeeny w1 else decodeLong w1 w2

/-- Why a decoder given a finite stream finds no instruction: only because the stream stops.  No Word is an illegal
encoding (R60). -/
inductive DecodeError where
  /-- The stream is empty. -/
  | noWord
  /-- The first Word is LONG and no second Word follows it (R50). -/
  | noImmediate
  /-- A byte stream stops inside a Word (20_memory.md R33). -/
  | halfWord
deriving DecidableEq, Repr

/-- The first instruction of a sequence of Words, with the Words after it. -/
def decode : List Word → Except DecodeError (Instr × List Word)
  | [] => .error .noWord
  | w1 :: rest =>
    if teenyField w1 then .ok (decodeTeeny w1, rest)
    else
      match rest with
      | [] => .error .noImmediate
      | w2 :: rest' => .ok (decodeLong w1 w2, rest')

/-! ## Bytes of a Word (20_memory.md R33: little-endian, decision D12) -/

/-- Bits 7:0 of a Word. -/
def Word.low (w : Word) : Byte := w.extractLsb' 0 8

/-- Bits 15:8 of a Word. -/
def Word.high (w : Word) : Byte := w.extractLsb' 8 8

/-- The Word of a low and a high byte. -/
def Word.ofBytes (lo hi : Byte) : Word := hi ++ lo

/-- The bytes of a sequence of Words: Word `i` is bytes `2i` (low) and `2i + 1` (high) (20_memory.md R33). -/
def bytesOfWords : List Word → List Byte
  | [] => []
  | w :: ws => Word.low w :: Word.high w :: bytesOfWords ws

/-- The Words of a byte stream; none for an odd length, which is no image (20_memory.md R33, U10). -/
def wordsOfBytes : List Byte → Option (List Word)
  | [] => some []
  | [_] => none
  | lo :: hi :: rest => (wordsOfBytes rest).map (Word.ofBytes lo hi :: ·)

/-- The first instruction of a byte stream. -/
def decodeBytes (bs : List Byte) : Except DecodeError (Instr × List Word) :=
  match wordsOfBytes bs with
  | some ws => decode ws
  | none => .error .halfWord

/-! ## The encoder -/

/-- The instruction word: `opcode ++ teeny ++ reg1 ++ reg2 ++ low4` (R51). -/
def wordOfFields (f : Fields) : Word :=
  f.opcode.code ++ BitVec.ofBool f.teeny ++ f.reg1.index ++ f.reg2.index ++ f.low4

/-- The words of an instruction: one for TEENY, two for LONG, the second its immediate (R50, R53). -/
def encode (i : Instr) : List Word :=
  wordOfFields i.fields :: if i.fields.teeny then [] else [trunc16 i.fields.imm]

/-- The `k`-th byte of the numbering of spec/opcode_table.json: bit 0 is the least significant bit of the first
Word, and the second Word is bits 31..16. -/
def tableByte (w k : Nat) : Byte := BitVec.ofNat 8 (w / 256 ^ k)

/-- The bytes of an instruction whose low `nbits` bits are `w`, every bit above them 0, up to the longest
instruction (two Words). -/
def tableBytes (nbits w : Nat) : List Byte :=
  let v := w % 2 ^ nbits
  [tableByte v 0, tableByte v 1, tableByte v 2, tableByte v 3]

/-- The instruction the decoder reads from an instruction whose bits are `w`, numbered as the table does. -/
def decodeTableWord (nbits w : Nat) : Option Instr :=
  match decodeBytes (tableBytes nbits w) with
  | .ok (i, _) => some i
  | .error _ => none

end Sys2Proof
end

