-- ==== Sys2Proof/Machine/Alu.lean ====
section
/-! DEFINITION. The ALU primitives: fixed-width arithmetic on two Words, computed exactly and narrowed to 16 bits
(40_fetch_decode_execute_cycle.md R76 to R78), the shift (45_shift_rotate_negate_compare.md R107) and the bit
operations (43_bit_operations.md R90 to R92). -/

namespace Sys2Proof.Machine

/-- `add16` (R76). -/
def add16 (a b : Word) : Word := trunc16 ((a.toNat : Int) + b.toNat)

/-- `sub16` (R76). -/
def sub16 (a b : Word) : Word := trunc16 ((a.toNat : Int) - b.toNat)

/-- `mul16`: the low 16 bits of the product (R76). -/
def mul16 (a b : Word) : Word := trunc16 ((a.toNat : Int) * b.toNat)

/-- `div16`: both operands signed, the quotient truncated toward zero (R77; decision D6, log 9).  Never called with
a zero divisor. -/
def div16 (a b : Word) : Word := trunc16 (Int.tdiv a.toInt b.toInt)

/-- `mod16`: the remainder of `div16`'s quotient, with the sign of the dividend (R77; decision D6, log 9). -/
def mod16 (a b : Word) : Word := trunc16 (a.toInt - b.toInt * Int.tdiv a.toInt b.toInt)

/-- `and16` (R76). -/
def and16 (a b : Word) : Word := a &&& b

/-- `or16` (R76). -/
def or16 (a b : Word) : Word := a ||| b

/-- `xor16` (R76). -/
def xor16 (a b : Word) : Word := a ^^^ b

/-- `neg16`: bitwise NOT, then add one (R78). -/
def neg16 (a : Word) : Word := trunc16 (((a ^^^ 0xFFFF#16).toNat : Int) + 1)

/-- The shift of SHF by a signed amount: left by the magnitude when negative, right with zeros when positive, zero
when the magnitude exceeds 15 (R107; the logical fill is decision D7, log 10). -/
def shift16 (v : Word) (n : Int) : Word :=
  if n < 0 then (if 15 < -n then 0#16 else v <<< (-n).toNat)
  else if 0 < n then (if 15 < n then 0#16 else v >>> n.toNat)
  else v

/-- The Word with bit `k` alone set: `1 << k` (43_bit_operations.md R90). -/
def oneBit (k : Nat) : Word := 1#16 <<< k

/-- BTS on a value (R90). -/
def setBit (v : Word) (k : Nat) : Word := v ||| oneBit k

/-- BTC on a value (R91). -/
def clearBit (v : Word) (k : Nat) : Word := v &&& ~~~ oneBit k

/-- BTF on a value (R92). -/
def flipBit (v : Word) (k : Nat) : Word := v ^^^ oneBit k

end Sys2Proof.Machine
end

