-- ==== Sys2Proof/Config.lean ====
section
/-! DEFINITION. The parameters of the hardware (00_scope.md R2), the block's output events (R6), and the free
values: the open parameter BUS_DELAY and the answers of the two bus hooks, which the host supplies. -/

namespace Sys2Proof

/-- One output of the block with the answer the host gave inside the tick (00_scope.md R6). -/
inductive Event where
  /-- `BusRead(addr)`, answered with `data` and `delayCycles` (20_memory.md R36). -/
  | busRead (addr : Word) (data : Word) (delayCycles : BitVec 32)
  /-- `BusWrite(addr, data)`, answered with `delayCycles` (20_memory.md R37). -/
  | busWrite (addr : Word) (data : Word) (delayCycles : BitVec 32)
  /-- `Report("unknown opcode", opcode)` (46_control_flow_and_delay.md R118). -/
  | report (opcode : BitVec 5)
deriving DecidableEq, Repr

namespace Config

/-- RAM_SIZE: 32768 Words (R2, R17). -/
def ramSize : Nat := 0x8000

/-- The mask of a 15-bit RAM address; as an address it is RAM_TOP (R2). -/
def ramTop : Word := 0x7FFF#16

/-- RESET_SP (R2, R26). -/
def resetSp : Word := 0x7FFF#16

/-- RESET_PC (R2, R26). -/
def resetPc : Word := 0x0000#16

/-- IMM_FETCH_DELAY: the delay cycle of the second instruction Word (R2, R69). -/
def immFetchDelay : Nat := 1

/-- MAX_PASSES of the assembler (R2, R128). -/
def maxPasses : Nat := 100

/-- BUS_DELAY, charged for every LOD and STR: an OPEN natural number (R2, R186, decision D3; log 3). -/
opaque busDelay : Nat

/-- The `data` the host's read hook answers (20_memory.md R36, decision D14; log 4): a free value of the output
events so far, of the count of executed instructions and of the address. -/
opaque busReadData : List Event → Nat → Word → Word

/-- The `delayCycles` the host's read hook answers (20_memory.md R36, decision D14; log 4). -/
opaque busReadDelay : List Event → Nat → Word → BitVec 32

/-- The `delayCycles` the host's write hook answers (20_memory.md R37, decision D14; log 4). -/
opaque busWriteDelay : List Event → Nat → Word → Word → BitVec 32

end Config

end Sys2Proof
end

