-- ==== Sys2Proof/Machine/State.lean ====
section
/-! DEFINITION. The state of the engine (10_state.md), its reset value (R26), and the reasons a step could stop
(60_exceptions.md R160, R173: the hardware has none). -/

namespace Sys2Proof.Machine

/-- The register file: 8 Words (10_state.md R11).  `rz` is an ordinary slot inside an instruction (R14). -/
structure RegFile where
  pc : Word
  sp : Word
  rz : Word
  ra : Word
  rb : Word
  rc : Word
  rd : Word
  re : Word
deriving DecidableEq, Repr

/-- The three flags (10_state.md R16). -/
structure Flags where
  equals  : Bool
  less    : Bool
  greater : Bool
deriving DecidableEq, Repr

/-- RAM as the bytes of its Words, byte `2a` the low and byte `2a + 1` the high half of the Word at Word address
`a` (log 1: a representation, no instruction sees a byte, 20_memory.md R31).  A byte not listed is 0 (10_state.md
R17, R26: RAM is zero where nothing was loaded or stored). -/
abbrev Memory := List Host.Cell

/-- The whole state of the engine (10_state.md R23 lists it); `events` is the model's own field (log 5). -/
structure State where
  /-- The register file (R11). -/
  regs   : RegFile
  /-- The flags E, L, G (R16). -/
  flags  : Flags
  /-- RAM: 32768 Words (R17). -/
  mem    : Memory
  /-- The pending-delay counter (R19). -/
  delay  : Nat
  /-- The total-cycle counter, diagnostic (R20). -/
  cycles : Nat
  /-- The instruction register (R21). -/
  ir     : Word
  /-- The output events so far, newest first (00_scope.md R6); the model's own field (log 5). -/
  events : List Event
deriving DecidableEq, Repr

/-- The faults of the hardware: there is none (60_exceptions.md R160, R173), so the type has no constructor and
nothing raises one (log 8).  Safe: no path of the hardware is cut off. -/
inductive Fault
deriving DecidableEq, Repr

/-- Why a step could have no meaning. -/
inductive Refusal where
  /-- An instruction without a meaning in the model, by its mnemonic.  No arm raises it: every instruction has its
  meaning.  It would be safe: a refused step proves nothing about the hardware. -/
  | notModelled (mnemonic : String)
deriving DecidableEq, Repr

/-- What a step or a meaning answers. -/
abbrev Result := Host.Outcome State Fault Refusal

/-- The state after reset of the empty image (10_state.md R26): all registers 0 but sp, flags false, RAM zero, both
counters 0.  R26 leaves `IR` unspecified: 0 is the model's choice (log 2). -/
def State.reset : State where
  regs   := ⟨Config.resetPc, Config.resetSp, 0, 0, 0, 0, 0, 0⟩
  flags  := ⟨false, false, false⟩
  mem    := []
  delay  := 0
  cycles := 0
  ir     := 0
  events := []

end Sys2Proof.Machine
end

