-- ==== Sys2Proof/Machine/Flags.lean ====
section
/-! DEFINITION. The flag computation, one for every instruction that writes flags (40_fetch_decode_execute_cycle.md
R73), and the condition of a jump, their only reader (46_control_flow_and_delay.md R113). -/

namespace Sys2Proof.Machine

/-- The flags `SetFlags(v)` writes, from the 16-bit result (R73). -/
def flagsOf (v : Word) : Flags where
  equals  := v == 0#16
  less    := v.msb
  greater := decide (0 < v.toInt)

/-- `SetFlags(v)` (R73). -/
def State.setFlags (s : State) (v : Word) : State := { s with flags := flagsOf v }

/-- Whether a jump is taken: bit 2 of the condition bits selects equals, bit 1 less, bit 0 greater, and no bit set
means always (R113; the bit positions are decision D2, log 15). -/
def condTaken (cond : BitVec 3) (f : Flags) : Bool :=
  cond == 0#3 || (cond.getLsbD 2 && f.equals) || (cond.getLsbD 1 && f.less) || (cond.getLsbD 0 && f.greater)

end Sys2Proof.Machine
end

