-- ==== Sys2Proof/Machine/Ops.lean ====
section
/-! DEFINITION. The named operations over registers, RAM, the bus, the stack and the counters.  The hardware has no
exception and no interrupt (60_exceptions.md R160 to R165), so there is no entry and no return operation here. -/

namespace Sys2Proof.Machine

/-! ## Registers (10_state.md R11) -/

/-- The Word in a register. -/
def RegFile.get (f : RegFile) : Reg → Word
  | .pc => f.pc
  | .sp => f.sp
  | .rz => f.rz
  | .ra => f.ra
  | .rb => f.rb
  | .rc => f.rc
  | .rd => f.rd
  | .re => f.re

/-- The register file after one register is written. -/
def RegFile.set (f : RegFile) (r : Reg) (v : Word) : RegFile :=
  match r with
  | .pc => { f with pc := v }
  | .sp => { f with sp := v }
  | .rz => { f with rz := v }
  | .ra => { f with ra := v }
  | .rb => { f with rb := v }
  | .rc => { f with rc := v }
  | .rd => { f with rd := v }
  | .re => { f with re := v }

/-- `x[r]` (00_scope.md R4).  Inside an instruction `x[2]` is read like any other slot (10_state.md R14). -/
def State.getReg (s : State) (r : Reg) : Word := s.regs.get r

/-- `x[r] <- v` (00_scope.md R4). -/
def State.setReg (s : State) (r : Reg) (v : Word) : State := { s with regs := s.regs.set r v }

/-! ## RAM (10_state.md R17) -/

/-- One byte of RAM; an unlisted byte is 0 (R17, R26). -/
def Memory.readByte : Memory → Nat → Byte
  | [], _ => 0#8
  | (a, b) :: m, k => if a = k then b else Memory.readByte m k

/-- RAM after one byte is written, in the canonical form: a zero byte is not listed. -/
def Memory.writeByte : Memory → Nat → Byte → Memory
  | [], k, v => if v = 0#8 then [] else [(k, v)]
  | (a, b) :: m, k, v =>
    if k < a then (if v = 0#8 then (a, b) :: m else (k, v) :: (a, b) :: m)
    else if k = a then (if v = 0#8 then m else (k, v) :: m)
    else (a, b) :: Memory.writeByte m k v

/-- The canonical form from byte `lo` on: addresses rise, none is past the end of RAM, no zero byte is listed. -/
def Memory.wfFrom (lo : Nat) : Memory → Bool
  | [] => true
  | (a, b) :: m => decide (lo ≤ a) && decide (a < 2 * Config.ramSize) && (b != 0#8) && Memory.wfFrom (a + 1) m

/-- The canonical form of RAM: equal contents are equal lists. -/
def Memory.wf (m : Memory) : Bool := Memory.wfFrom 0 m

/-- `RAM[a]`: the Word at Word address `a` (R17). -/
def Memory.readWord (m : Memory) (a : Nat) : Word :=
  Word.ofBytes (Memory.readByte m (2 * a)) (Memory.readByte m (2 * a + 1))

/-- RAM after `RAM[a] <- v`. -/
def Memory.writeWord (m : Memory) (a : Nat) (v : Word) : Memory :=
  Memory.writeByte (Memory.writeByte m (2 * a) (Word.low v)) (2 * a + 1) (Word.high v)

/-- An address taken modulo 0x8000: bits 14:0 (10_state.md R12). -/
def mask15 (a : Word) : Word := a &&& Config.ramTop

/-- `RAM[a]` of a state. -/
def State.ramRead (s : State) (a : Word) : Word := Memory.readWord s.mem a.toNat

/-- `RAM[a] <- v`. -/
def State.ramWrite (s : State) (a : Word) (v : Word) : State :=
  { s with mem := Memory.writeWord s.mem a.toNat v }

/-! ## Counters and outputs -/

/-- `delay <- delay + d` (10_state.md R19). -/
def State.addDelay (s : State) (d : Nat) : State := { s with delay := s.delay + d }

/-- `delay <- d` (46_control_flow_and_delay.md R115). -/
def State.setDelay (s : State) (d : Nat) : State := { s with delay := d }

/-- An output event of the block (00_scope.md R6). -/
def State.emit (s : State) (e : Event) : State := { s with events := e :: s.events }

/-- `Report("unknown opcode", opcode)`: no effect on architectural state (46_control_flow_and_delay.md R118). -/
def State.report (s : State) (opcode : BitVec 5) : State := s.emit (.report opcode)

/-! ## The bus (20_memory.md R36, R37) -/

/-- What a read of one Word answers: the data, the extra delay cycles, and the state after the access. -/
structure ReadAnswer where
  data  : Word
  delay : Nat
  state : State
deriving DecidableEq, Repr

/-- What a write of one Word answers. -/
structure WriteAnswer where
  delay : Nat
  state : State
deriving DecidableEq, Repr

/-- `BusRead(addr)`: exactly one call of the read hook, whose answer is a free value (R36; log 4). -/
def State.busRead (s : State) (addr : Word) : ReadAnswer :=
  let data := Config.busReadData s.events s.cycles addr
  let d := Config.busReadDelay s.events s.cycles addr
  ⟨data, d.toNat, s.emit (.busRead addr data d)⟩

/-- `BusWrite(addr, v)`: exactly one call of the write hook, whose delay is a free value (R37; log 4). -/
def State.busWrite (s : State) (addr v : Word) : WriteAnswer :=
  let d := Config.busWriteDelay s.events s.cycles addr v
  ⟨d.toNat, s.emit (.busWrite addr v d)⟩

/-- Whether an address selects RAM and not the bus: it does not exceed 0x7FFF (R34). -/
def inRam (addr : Word) : Bool := decide (addr ≤ Config.ramTop)

/-- `MemRead(addr, 1)` (20_memory.md R35). -/
def State.memRead (s : State) (addr : Word) : ReadAnswer :=
  if inRam addr then ⟨s.ramRead addr, 0, s⟩ else s.busRead addr

/-- `MemWrite(addr, 1, v)` (20_memory.md R35). -/
def State.memWrite (s : State) (addr v : Word) : WriteAnswer :=
  if inRam addr then ⟨0, s.ramWrite addr v⟩ else s.busWrite addr v

/-! ## The stack (20_memory.md R40, 42_stack_and_call.md R85 to R87) -/

/-- `RAM[sp[14:0]] <- v; sp <- (sp - 1)[14:0]` (R85; the mask on the address is decision D10, log 12). -/
def State.push (s : State) (v : Word) : State :=
  let sp := s.getReg .sp
  (s.ramWrite (mask15 sp) v).setReg .sp (mask15 (sp - 1#16))

/-- `sp <- (sp + 1)[14:0]; x[r] <- RAM[sp]` (R86). -/
def State.popInto (s : State) (r : Reg) : State :=
  let sp := mask15 (s.getReg .sp + 1#16)
  let s := s.setReg .sp sp
  s.setReg r (s.ramRead sp)

end Sys2Proof.Machine
end

