-- ==== Sys2Proof/Machine/Operands.lean ====
section
/-! DEFINITION. The operand forms: every instruction's second operand, address or target is a register plus the
resolved immediate, modulo 65536 (40_fetch_decode_execute_cycle.md R72, 20_memory.md R34). -/

namespace Sys2Proof.Machine

/-- `trunc16(u(x[r]) + imm)` (R72, R34). -/
def State.regPlusImm (s : State) (r : Reg) (imm : Int) : Word := trunc16 ((s.getReg r).toNat + imm)

/-- `opnd`, the combined second operand (R72). -/
def State.opnd (s : State) (reg2 : Reg) (imm : Int) : Word := s.regPlusImm reg2 imm

/-- A bit index when it is in range: `idx <- s(opnd)` with `0 <= idx <= 15` (43_bit_operations.md R90). -/
def bitIndex (opnd : Word) : Option Nat :=
  if 0 ≤ opnd.toInt ∧ opnd.toInt ≤ 15 then some opnd.toInt.toNat else none

end Sys2Proof.Machine
end

