-- ==== Sys2Proof/Machine/ArithLogic.lean ====
section
/-! DEFINITION. ADD, SUB, MPY, DIV, MOD, AND, OR, XOR (44_arithmetic_logic.md). -/

namespace Sys2Proof.Machine

/-- The arithmetic group: `x[reg1] <- f(x[reg1], opnd)`, both read before the write, and the flags of the 16-bit
result (R103). -/
def opArith (f : Word → Word → Word) (reg1 reg2 : Reg) (imm : Int) (s : State) : Result :=
  let v := f (s.getReg reg1) (s.opnd reg2 imm)
  .next ((s.setReg reg1 v).setFlags v)

/-- DIV and MOD: skipped entirely, register and flags unchanged, when the 16-bit `opnd` is 0 (R98, R99). -/
def opDivide (f : Word → Word → Word) (reg1 reg2 : Reg) (imm : Int) (s : State) : Result :=
  if s.opnd reg2 imm = 0#16 then .next s else opArith f reg1 reg2 imm s

/-- add TEENY form (R95). -/
def execAddTeeny (reg1 reg2 : Reg) (imm : Int) (s : State) : Result := opArith add16 reg1 reg2 imm s

/-- add LONG form (R95). -/
def execAddLong (reg1 reg2 : Reg) (imm : Int) (s : State) : Result := opArith add16 reg1 reg2 imm s

/-- sub TEENY form (R96). -/
def execSubTeeny (reg1 reg2 : Reg) (imm : Int) (s : State) : Result := opArith sub16 reg1 reg2 imm s

/-- sub LONG form (R96). -/
def execSubLong (reg1 reg2 : Reg) (imm : Int) (s : State) : Result := opArith sub16 reg1 reg2 imm s

/-- mpy TEENY form (R97). -/
def execMpyTeeny (reg1 reg2 : Reg) (imm : Int) (s : State) : Result := opArith mul16 reg1 reg2 imm s

/-- mpy LONG form (R97). -/
def execMpyLong (reg1 reg2 : Reg) (imm : Int) (s : State) : Result := opArith mul16 reg1 reg2 imm s

/-- div TEENY form (R98). -/
def execDivTeeny (reg1 reg2 : Reg) (imm : Int) (s : State) : Result := opDivide div16 reg1 reg2 imm s

/-- div LONG form (R98). -/
def execDivLong (reg1 reg2 : Reg) (imm : Int) (s : State) : Result := opDivide div16 reg1 reg2 imm s

/-- mod TEENY form (R99). -/
def execModTeeny (reg1 reg2 : Reg) (imm : Int) (s : State) : Result := opDivide mod16 reg1 reg2 imm s

/-- mod LONG form (R99). -/
def execModLong (reg1 reg2 : Reg) (imm : Int) (s : State) : Result := opDivide mod16 reg1 reg2 imm s

/-- and TEENY form (R100). -/
def execAndTeeny (reg1 reg2 : Reg) (imm : Int) (s : State) : Result := opArith and16 reg1 reg2 imm s

/-- and LONG form (R100). -/
def execAndLong (reg1 reg2 : Reg) (imm : Int) (s : State) : Result := opArith and16 reg1 reg2 imm s

/-- or TEENY form (R101). -/
def execOrTeeny (reg1 reg2 : Reg) (imm : Int) (s : State) : Result := opArith or16 reg1 reg2 imm s

/-- or LONG form (R101). -/
def execOrLong (reg1 reg2 : Reg) (imm : Int) (s : State) : Result := opArith or16 reg1 reg2 imm s

/-- xor TEENY form (R102). -/
def execXorTeeny (reg1 reg2 : Reg) (imm : Int) (s : State) : Result := opArith xor16 reg1 reg2 imm s

/-- xor LONG form (R102). -/
def execXorLong (reg1 reg2 : Reg) (imm : Int) (s : State) : Result := opArith xor16 reg1 reg2 imm s

end Sys2Proof.Machine
end

