-- ==== Sys2Proof/Machine/BitOps.lean ====
section
/-! DEFINITION. BTS, BTC, BTF (43_bit_operations.md).  The register of reg2 is both the source of the bit index and
the target (R93). -/

namespace Sys2Proof.Machine

/-- Apply `f` to `x[reg2]` at the index `x[reg2] + imm` and set the flags from the new value, when the index is in
range; else nothing is written (R90, R91, R92). -/
def opBit (f : Word → Nat → Word) (reg2 : Reg) (imm : Int) (s : State) : Result :=
  match bitIndex (s.opnd reg2 imm) with
  | some k =>
    let v := f (s.getReg reg2) k
    .next ((s.setReg reg2 v).setFlags v)
  | none => .next s

/-- bts TEENY form (R90; reg1 is ignored). -/
def execBtsTeeny (reg2 : Reg) (imm : Int) (s : State) : Result := opBit setBit reg2 imm s

/-- bts LONG form (R90; reg1 is ignored). -/
def execBtsLong (reg2 : Reg) (imm : Int) (s : State) : Result := opBit setBit reg2 imm s

/-- btc TEENY form (R91; reg1 is ignored). -/
def execBtcTeeny (reg2 : Reg) (imm : Int) (s : State) : Result := opBit clearBit reg2 imm s

/-- btc LONG form (R91; reg1 is ignored). -/
def execBtcLong (reg2 : Reg) (imm : Int) (s : State) : Result := opBit clearBit reg2 imm s

/-- btf TEENY form (R92; reg1 is ignored). -/
def execBtfTeeny (reg2 : Reg) (imm : Int) (s : State) : Result := opBit flipBit reg2 imm s

/-- btf LONG form (R92; reg1 is ignored). -/
def execBtfLong (reg2 : Reg) (imm : Int) (s : State) : Result := opBit flipBit reg2 imm s

end Sys2Proof.Machine
end

