-- ==== Sys2Proof/Machine/ControlFlow.lean ====
section
/-! DEFINITION. JMP, DJZ, DLY (46_control_flow_and_delay.md). -/

namespace Sys2Proof.Machine

/-- When the condition holds, `pc <- x[reg1] + imm`; else pc stays at the advanced value (R113). -/
def opJmp (reg1 : Reg) (cond : BitVec 3) (imm : Int) (s : State) : Result :=
  .next (if condTaken cond s.flags then s.setReg .pc (s.regPlusImm reg1 imm) else s)

/-- Decrement `x[reg1]`, set the flags from the new value, and when it is 0 jump to `x[reg2] + imm`, read after the
decrement (R114; decision D24, log 13). -/
def opDjz (reg1 reg2 : Reg) (imm : Int) (s : State) : Result :=
  let v := sub16 (s.getReg reg1) 1#16
  let t := (s.setReg reg1 v).setFlags v
  .next (if v = 0#16 then t.setReg .pc (t.regPlusImm reg2 imm) else t)

/-- `c <- u(opnd)`; when `c >= 1` the pending-delay counter is overwritten with `c - 1` (R115; decision D8, log 19). -/
def opDly (reg2 : Reg) (imm : Int) (s : State) : Result :=
  let c := (s.opnd reg2 imm).toNat
  .next (if 1 ≤ c then s.setDelay (c - 1) else s)

/-- jmp, TEENY form (R113, R55: condition bits and immediate are one field; reg2 is ignored). -/
def execJmpTeeny (reg1 : Reg) (cond : BitVec 3) (imm : Int) (s : State) : Result := opJmp reg1 cond imm s

/-- jmp, LONG form (R113; reg2 and bit 3 of low-4 are ignored). -/
def execJmpLong (reg1 : Reg) (cond : BitVec 3) (imm : Int) (s : State) : Result := opJmp reg1 cond imm s

/-- djz TEENY form (R114). -/
def execDjzTeeny (reg1 reg2 : Reg) (imm : Int) (s : State) : Result := opDjz reg1 reg2 imm s

/-- djz LONG form (R114). -/
def execDjzLong (reg1 reg2 : Reg) (imm : Int) (s : State) : Result := opDjz reg1 reg2 imm s

/-- dly TEENY form (R115; reg1 is ignored). -/
def execDlyTeeny (reg2 : Reg) (imm : Int) (s : State) : Result := opDly reg2 imm s

/-- dly LONG form (R115; reg1 is ignored). -/
def execDlyLong (reg2 : Reg) (imm : Int) (s : State) : Result := opDly reg2 imm s

end Sys2Proof.Machine
end

