-- ==== Sys2Proof/Machine/DataMovement.lean ====
section
/-! DEFINITION. SET, LOD, STR (41_data_movement.md).  A meaning is the `Execute` step of the tick: the fetch has
advanced pc and charged the LONG delay before it, the end of the tick forces `x[2]` (40 R75). -/

namespace Sys2Proof.Machine

/-- `x[reg1] <- opnd`; no flag is written (R80; decisions D4, D22). -/
def opSet (reg1 reg2 : Reg) (imm : Int) (s : State) : Result := .next (s.setReg reg1 (s.opnd reg2 imm))

/-- `(data, d) <- MemRead(opnd, 1); x[reg1] <- data; delay <- delay + d + BUS_DELAY` (R81; decision D5). -/
def opLod (reg1 reg2 : Reg) (imm : Int) (s : State) : Result :=
  let a := s.memRead (s.opnd reg2 imm)
  .next ((a.state.setReg reg1 a.data).addDelay (a.delay + Config.busDelay))

/-- `d <- MemWrite(x[reg1] + imm, 1, x[reg2]); delay <- delay + d + BUS_DELAY` (R82; decision D5). -/
def opStr (reg1 reg2 : Reg) (imm : Int) (s : State) : Result :=
  let a := s.memWrite (s.regPlusImm reg1 imm) (s.getReg reg2)
  .next (a.state.addDelay (a.delay + Config.busDelay))

/-- set TEENY form (R80). -/
def execSetTeeny (reg1 reg2 : Reg) (imm : Int) (s : State) : Result := opSet reg1 reg2 imm s

/-- set LONG form (R80). -/
def execSetLong (reg1 reg2 : Reg) (imm : Int) (s : State) : Result := opSet reg1 reg2 imm s

/-- lod TEENY form (R81). -/
def execLodTeeny (reg1 reg2 : Reg) (imm : Int) (s : State) : Result := opLod reg1 reg2 imm s

/-- lod LONG form (R81). -/
def execLodLong (reg1 reg2 : Reg) (imm : Int) (s : State) : Result := opLod reg1 reg2 imm s

/-- str TEENY form (R82). -/
def execStrTeeny (reg1 reg2 : Reg) (imm : Int) (s : State) : Result := opStr reg1 reg2 imm s

/-- str LONG form (R82). -/
def execStrLong (reg1 reg2 : Reg) (imm : Int) (s : State) : Result := opStr reg1 reg2 imm s

end Sys2Proof.Machine
end

