-- ==== Sys2Proof/Machine/Reserved.lean ====
section
/-! DEFINITION. The reserved opcodes 24 to 31 (46_control_flow_and_delay.md R118, 30_encoding.md R58): reported,
and otherwise no operation. -/

namespace Sys2Proof.Machine

/-- One report of the opcode; no register, flag or RAM cell changes (R118). -/
def opReserved (code : BitVec 5) (s : State) : Result := .next (s.report code)

/-- Opcode 24, TEENY form (R118). -/
def execReserved24Teeny (s : State) : Result := opReserved 24 s

/-- Opcode 24, LONG form (R118). -/
def execReserved24Long (s : State) : Result := opReserved 24 s

/-- Opcode 25, TEENY form (R118). -/
def execReserved25Teeny (s : State) : Result := opReserved 25 s

/-- Opcode 25, LONG form (R118). -/
def execReserved25Long (s : State) : Result := opReserved 25 s

/-- Opcode 26, TEENY form (R118). -/
def execReserved26Teeny (s : State) : Result := opReserved 26 s

/-- Opcode 26, LONG form (R118). -/
def execReserved26Long (s : State) : Result := opReserved 26 s

/-- Opcode 27, TEENY form (R118). -/
def execReserved27Teeny (s : State) : Result := opReserved 27 s

/-- Opcode 27, LONG form (R118). -/
def execReserved27Long (s : State) : Result := opReserved 27 s

/-- Opcode 28, TEENY form (R118). -/
def execReserved28Teeny (s : State) : Result := opReserved 28 s

/-- Opcode 28, LONG form (R118). -/
def execReserved28Long (s : State) : Result := opReserved 28 s

/-- Opcode 29, TEENY form (R118). -/
def execReserved29Teeny (s : State) : Result := opReserved 29 s

/-- Opcode 29, LONG form (R118). -/
def execReserved29Long (s : State) : Result := opReserved 29 s

/-- Opcode 30, TEENY form (R118). -/
def execReserved30Teeny (s : State) : Result := opReserved 30 s

/-- Opcode 30, LONG form (R118). -/
def execReserved30Long (s : State) : Result := opReserved 30 s

/-- Opcode 31, TEENY form (R118). -/
def execReserved31Teeny (s : State) : Result := opReserved 31 s

/-- Opcode 31, LONG form (R118). -/
def execReserved31Long (s : State) : Result := opReserved 31 s

end Sys2Proof.Machine
end

