-- ==== Sys2Proof/Machine/ShiftCompare.lean ====
section
/-! DEFINITION. SHF, ROT, NEG, CMP (45_shift_rotate_negate_compare.md). -/

namespace Sys2Proof.Machine

/-- Shift `x[reg1]` by `s(opnd)`, both read before the write; the flags are set from the result on every SHF, a shift
by zero included (R107; decision D7, log 10). -/
def opShf (reg1 reg2 : Reg) (imm : Int) (s : State) : Result :=
  let v := shift16 (s.getReg reg1) (s.opnd reg2 imm).toInt
  .next ((s.setReg reg1 v).setFlags v)

/-- `x[reg1] <- neg16(x[reg1])`, flags from the new value (R109). -/
def opNeg (reg1 : Reg) (s : State) : Result :=
  let v := neg16 (s.getReg reg1)
  .next ((s.setReg reg1 v).setFlags v)

/-- Flags of `x[reg1] - opnd`; no register is written (R110). -/
def opCmp (reg1 reg2 : Reg) (imm : Int) (s : State) : Result :=
  .next (s.setFlags (sub16 (s.getReg reg1) (s.opnd reg2 imm)))

/-- shf TEENY form (R107). -/
def execShfTeeny (reg1 reg2 : Reg) (imm : Int) (s : State) : Result := opShf reg1 reg2 imm s

/-- shf LONG form (R107). -/
def execShfLong (reg1 reg2 : Reg) (imm : Int) (s : State) : Result := opShf reg1 reg2 imm s

/-- rot TEENY form (R108: no operation, nothing is reported; R59, decision D28). -/
def execRotTeeny (s : State) : Result := .next s

/-- rot LONG form (R108: no operation, nothing is reported; R59, decision D28). -/
def execRotLong (s : State) : Result := .next s

/-- neg TEENY form (R109; reg2 and the immediate are ignored). -/
def execNegTeeny (reg1 : Reg) (s : State) : Result := opNeg reg1 s

/-- neg LONG form (R109; reg2 and the immediate are ignored). -/
def execNegLong (reg1 : Reg) (s : State) : Result := opNeg reg1 s

/-- cmp TEENY form (R110). -/
def execCmpTeeny (reg1 reg2 : Reg) (imm : Int) (s : State) : Result := opCmp reg1 reg2 imm s

/-- cmp LONG form (R110). -/
def execCmpLong (reg1 reg2 : Reg) (imm : Int) (s : State) : Result := opCmp reg1 reg2 imm s

end Sys2Proof.Machine
end

