-- ==== Sys2Proof/Machine/Stack.lean ====
section
/-! DEFINITION. PSH, POP, CAL (42_stack_and_call.md); `ret` is POP into pc (R89). -/

namespace Sys2Proof.Machine

/-- Push `opnd`, which is read before sp changes (R85; decision D24). -/
def opPsh (reg2 : Reg) (imm : Int) (s : State) : Result := .next (s.push (s.opnd reg2 imm))

/-- Pop into reg1: sp changes first (R86; decision D24). -/
def opPop (reg1 : Reg) (s : State) : Result := .next (s.popInto reg1)

/-- Push the advanced pc, then jump to `x[reg2] + imm`, read after sp has changed (R87; decisions D24, D27). -/
def opCal (reg2 : Reg) (imm : Int) (s : State) : Result :=
  let t := s.push (s.getReg .pc)
  .next (t.setReg .pc (t.regPlusImm reg2 imm))

/-- psh TEENY form (R85; reg1 is ignored). -/
def execPshTeeny (reg2 : Reg) (imm : Int) (s : State) : Result := opPsh reg2 imm s

/-- psh LONG form (R85; reg1 is ignored). -/
def execPshLong (reg2 : Reg) (imm : Int) (s : State) : Result := opPsh reg2 imm s

/-- pop TEENY form (R86; reg2 and the immediate are ignored). -/
def execPopTeeny (reg1 : Reg) (s : State) : Result := opPop reg1 s

/-- pop LONG form (R86; reg2 and the immediate are ignored). -/
def execPopLong (reg1 : Reg) (s : State) : Result := opPop reg1 s

/-- cal TEENY form (R87; reg1 is ignored). -/
def execCalTeeny (reg2 : Reg) (imm : Int) (s : State) : Result := opCal reg2 imm s

/-- cal LONG form (R87; reg1 is ignored). -/
def execCalLong (reg2 : Reg) (imm : Int) (s : State) : Result := opCal reg2 imm s

end Sys2Proof.Machine
end

