-- ==== Sys2Proof/Machine/Dispatch.lean ====
section
/-! DEFINITION. The dispatch on the opcode (40_fetch_decode_execute_cycle.md R70): one arm per constructor. -/

namespace Sys2Proof.Machine

/-- `Execute` (R75): the meaning of one instruction, at the state the fetch has left. -/
def exec (i : Instr) (s : State) : Host.Outcome State Fault Refusal :=
  match i with
  | .setTeeny a b v => Sys2Proof.Machine.execSetTeeny a b v s
  | .setLong a b _ v => Sys2Proof.Machine.execSetLong a b v s
  | .lodTeeny a b v => Sys2Proof.Machine.execLodTeeny a b v s
  | .lodLong a b _ v => Sys2Proof.Machine.execLodLong a b v s
  | .strTeeny a b v => Sys2Proof.Machine.execStrTeeny a b v s
  | .strLong a b _ v => Sys2Proof.Machine.execStrLong a b v s
  | .pshTeeny _ b v => Sys2Proof.Machine.execPshTeeny b v s
  | .pshLong _ b _ v => Sys2Proof.Machine.execPshLong b v s
  | .popTeeny a _ _ => Sys2Proof.Machine.execPopTeeny a s
  | .popLong a _ _ _ => Sys2Proof.Machine.execPopLong a s
  | .btsTeeny _ b v => Sys2Proof.Machine.execBtsTeeny b v s
  | .btsLong _ b _ v => Sys2Proof.Machine.execBtsLong b v s
  | .btcTeeny _ b v => Sys2Proof.Machine.execBtcTeeny b v s
  | .btcLong _ b _ v => Sys2Proof.Machine.execBtcLong b v s
  | .btfTeeny _ b v => Sys2Proof.Machine.execBtfTeeny b v s
  | .btfLong _ b _ v => Sys2Proof.Machine.execBtfLong b v s
  | .calTeeny _ b v => Sys2Proof.Machine.execCalTeeny b v s
  | .calLong _ b _ v => Sys2Proof.Machine.execCalLong b v s
  | .addTeeny a b v => Sys2Proof.Machine.execAddTeeny a b v s
  | .addLong a b _ v => Sys2Proof.Machine.execAddLong a b v s
  | .subTeeny a b v => Sys2Proof.Machine.execSubTeeny a b v s
  | .subLong a b _ v => Sys2Proof.Machine.execSubLong a b v s
  | .mpyTeeny a b v => Sys2Proof.Machine.execMpyTeeny a b v s
  | .mpyLong a b _ v => Sys2Proof.Machine.execMpyLong a b v s
  | .divTeeny a b v => Sys2Proof.Machine.execDivTeeny a b v s
  | .divLong a b _ v => Sys2Proof.Machine.execDivLong a b v s
  | .modTeeny a b v => Sys2Proof.Machine.execModTeeny a b v s
  | .modLong a b _ v => Sys2Proof.Machine.execModLong a b v s
  | .andTeeny a b v => Sys2Proof.Machine.execAndTeeny a b v s
  | .andLong a b _ v => Sys2Proof.Machine.execAndLong a b v s
  | .orTeeny a b v => Sys2Proof.Machine.execOrTeeny a b v s
  | .orLong a b _ v => Sys2Proof.Machine.execOrLong a b v s
  | .xorTeeny a b v => Sys2Proof.Machine.execXorTeeny a b v s
  | .xorLong a b _ v => Sys2Proof.Machine.execXorLong a b v s
  | .shfTeeny a b v => Sys2Proof.Machine.execShfTeeny a b v s
  | .shfLong a b _ v => Sys2Proof.Machine.execShfLong a b v s
  | .rotTeeny _ _ _ => Sys2Proof.Machine.execRotTeeny s
  | .rotLong _ _ _ _ => Sys2Proof.Machine.execRotLong s
  | .negTeeny a _ _ => Sys2Proof.Machine.execNegTeeny a s
  | .negLong a _ _ _ => Sys2Proof.Machine.execNegLong a s
  | .cmpTeeny a b v => Sys2Proof.Machine.execCmpTeeny a b v s
  | .cmpLong a b _ v => Sys2Proof.Machine.execCmpLong a b v s
  | .jmpTeeny a _ c v => Sys2Proof.Machine.execJmpTeeny a c v s
  | .jmpLong a _ _ c v => Sys2Proof.Machine.execJmpLong a c v s
  | .djzTeeny a b v => Sys2Proof.Machine.execDjzTeeny a b v s
  | .djzLong a b _ v => Sys2Proof.Machine.execDjzLong a b v s
  | .dlyTeeny _ b v => Sys2Proof.Machine.execDlyTeeny b v s
  | .dlyLong _ b _ v => Sys2Proof.Machine.execDlyLong b v s
  | .reserved24Teeny _ _ _ => Sys2Proof.Machine.execReserved24Teeny s
  | .reserved24Long _ _ _ _ => Sys2Proof.Machine.execReserved24Long s
  | .reserved25Teeny _ _ _ => Sys2Proof.Machine.execReserved25Teeny s
  | .reserved25Long _ _ _ _ => Sys2Proof.Machine.execReserved25Long s
  | .reserved26Teeny _ _ _ => Sys2Proof.Machine.execReserved26Teeny s
  | .reserved26Long _ _ _ _ => Sys2Proof.Machine.execReserved26Long s
  | .reserved27Teeny _ _ _ => Sys2Proof.Machine.execReserved27Teeny s
  | .reserved27Long _ _ _ _ => Sys2Proof.Machine.execReserved27Long s
  | .reserved28Teeny _ _ _ => Sys2Proof.Machine.execReserved28Teeny s
  | .reserved28Long _ _ _ _ => Sys2Proof.Machine.execReserved28Long s
  | .reserved29Teeny _ _ _ => Sys2Proof.Machine.execReserved29Teeny s
  | .reserved29Long _ _ _ _ => Sys2Proof.Machine.execReserved29Long s
  | .reserved30Teeny _ _ _ => Sys2Proof.Machine.execReserved30Teeny s
  | .reserved30Long _ _ _ _ => Sys2Proof.Machine.execReserved30Long s
  | .reserved31Teeny _ _ _ => Sys2Proof.Machine.execReserved31Teeny s
  | .reserved31Long _ _ _ _ => Sys2Proof.Machine.execReserved31Long s

end Sys2Proof.Machine
end

