-- ==== Sys2Proof/Machine/Fetch.lean ====
section
/-! DEFINITION. The fetch_unit and the program_counter_logic around an instruction (40_fetch_decode_execute_cycle.md
R65 to R71, R74, in the order of R75): the busy tick, the fetch, the end of an executing tick. -/

namespace Sys2Proof.Machine

/-- A busy tick: the pending-delay counter goes down by 1 and nothing else changes (R65). -/
def State.busyTick (s : State) : State := { s with delay := s.delay - 1 }

/-- `pc <- pc[14:0]`, written back (R66; decision D29, log 14). -/
def State.maskPc (s : State) : State := s.setReg .pc (mask15 (s.getReg .pc))

/-- `pc <- pc +16 1` (R68, R70). -/
def State.advancePc (s : State) : State := s.setReg .pc (s.getReg .pc + 1#16)

/-- `pc <- pc -16 1`, which undoes the first advance of a TEENY instruction (R68). -/
def State.retreatPc (s : State) : State := s.setReg .pc (s.getReg .pc - 1#16)

/-- `IR <- RAM[pc]` (R67). -/
def State.loadIr (s : State) : State := { s with ir := s.ramRead (s.getReg .pc) }

/-- The Word at pc taken modulo 0x8000: the LONG immediate, which never comes from the bus (R69; decision D9,
log 11). -/
def State.immWord (s : State) : Word := s.ramRead (mask15 (s.getReg .pc))

/-- The fetch and decode of R75, up to the dispatch: mask, first fetch, first advance, the immediate, second
advance.  The instruction sees the advanced pc (R70). -/
def State.fetch (s : State) : State × Instr :=
  let s := s.maskPc.loadIr.advancePc
  if teenyField s.ir then
    (s.retreatPc.advancePc, decodeTeeny s.ir)
  else
    ((s.addDelay Config.immFetchDelay).advancePc, decodeLong s.ir s.immWord)

/-- The end of an executing tick: `x[2] <- 0` (R71), then `cycles <- cycles + 1` (R74). -/
def State.retire (s : State) : State :=
  let s := s.setReg .rz 0#16
  { s with cycles := s.cycles + 1 }

/-- `s` with two Words stored where the next fetch reads them: at pc modulo 0x8000 and at the next address modulo
0x8000 (R66, R69). -/
def State.placeWords (s : State) (w1 w2 : Word) : State :=
  let a := mask15 (s.getReg .pc)
  (s.ramWrite a w1).ramWrite (mask15 (a + 1#16)) w2

end Sys2Proof.Machine
end

