-- ==== Sys2Proof/Machine/Step.lean ====
section
/-! DEFINITION. `tick()` (40_fetch_decode_execute_cycle.md R75), and the placing of an instruction where the next
tick fetches it. -/

namespace Sys2Proof.Machine

/-- What an executed instruction's outcome becomes at the end of its tick (R71, R74). -/
def finishTick : Result → Result
  | .next t => .next t.retire
  | .fault r => .fault r
  | .refused r => .refused r

/-- `tick()`: a busy tick, or one whole instruction (R65, R75). -/
def step (s : State) : Host.Outcome State Fault Refusal :=
  if s.delay = 0 then finishTick (exec s.fetch.2 s.fetch.1) else .next s.busyTick

/-- `s` with the instruction whose low `nbits` bits are `w` (bits above them 0, two Words) stored where the next
tick fetches, and no delay cycle pending, so that the very next step runs it.  It stands for a program loaded from
outside the machine (70_reset_and_hazards.md R176; log 6). -/
def State.withFetchWord (s : State) (nbits w : Nat) : State :=
  let v := w % 2 ^ nbits
  (s.placeWords (BitVec.ofNat 16 v) (BitVec.ofNat 16 (v / 65536))).setDelay 0

end Sys2Proof.Machine
end

