-- ==== Sys2Proof/Machine/AsmLex.lean ====
section
/-! DEFINITION. The assembler's lexical rules (47_assembler_encoder.md R121 to R124): lines, comments, letter case,
separators, minus signs, token kinds, numerals; and the parse of a line into one of the admitted shapes (R135, R138,
R139, R148).  Text is a list of characters. -/

namespace Sys2Proof.Machine

/-- The text of a token: a mnemonic, a register's name, a directive, a symbol or a numeral. -/
abbrev Name := List Char

/-- A token with the number of minus signs directly before it (R122; log 24). -/
structure Tok where
  minus : Nat
  text  : Name
deriving DecidableEq, Repr

/-- The lines of a text, cut at line feeds (R120; log 26). -/
def splitLines : List Char → List (List Char)
  | [] => [[]]
  | c :: cs =>
    if c = '\n' then [] :: splitLines cs
    else
      match splitLines cs with
      | [] => [[c]]
      | l :: ls => (c :: l) :: ls

/-- A line up to its first `;` (R121). -/
def cutComment : List Char → List Char
  | [] => []
  | c :: cs => if c = ';' then [] else c :: cutComment cs

/-- Letters are folded to lower case (R121). -/
def foldCase (c : Char) : Char :=
  if 65 ≤ c.toNat ∧ c.toNat ≤ 90 then Char.ofNat (c.toNat + 32) else c

/-- The separators, which have no semantic weight (R121); a carriage return counts as white space (log 26). -/
def isSeparator (c : Char) : Bool :=
  c = ' ' || c = '\t' || c = '\r' || c = ',' || c = '+' || c = '[' || c = ']'

/-- Split a comment-free line into tokens.  `run` is the number of minus signs just read, `minus` the number before
the token being read, `cur` that token's characters in reverse.  A minus sign is one more separator (R122). -/
def lexFrom : List Char → (run minus : Nat) → (cur : Name) → List Tok
  | [], _, minus, cur => if cur.isEmpty then [] else [⟨minus, cur.reverse⟩]
  | c :: cs, run, minus, cur =>
    if c = '-' then
      if cur.isEmpty then lexFrom cs (run + 1) 0 []
      else ⟨minus, cur.reverse⟩ :: lexFrom cs 1 0 []
    else if isSeparator c then
      if cur.isEmpty then lexFrom cs 0 0 []
      else ⟨minus, cur.reverse⟩ :: lexFrom cs 0 0 []
    else if cur.isEmpty then lexFrom cs 0 run [c]
    else lexFrom cs 0 minus (c :: cur)

/-- Whether a count of minus signs negates: parity (R122; decision D17, log 24). -/
def isOdd (n : Nat) : Bool := n % 2 == 1

/-- `Lex(line)`: the tokens, and the line's negation flag (R121, R122). -/
def lexLine (line : List Char) : List Tok × Bool :=
  let code := (cutComment line).map foldCase
  (lexFrom code 0 0 [], isOdd (code.count '-'))

/-- A register's name (10_state.md R11, R123). -/
def regOfName (t : Name) : Option Reg :=
  [("pc".toList, Reg.pc), ("sp".toList, .sp), ("rz".toList, .rz), ("ra".toList, .ra), ("rb".toList, .rb),
   ("rc".toList, .rc), ("rd".toList, .rd), ("re".toList, .re)].lookup t

/-- What a mnemonic stands for (R138): an opcode, a jump with its condition bits, or another pseudo-instruction. -/
inductive Mnemonic where
  | op (opcode : Opcode)
  | jump (cond : BitVec 3)
  | ret
  | inc
  | dec
deriving DecidableEq, Repr

/-- The 24 opcode names and the nine pseudo-instructions (R138, R142 to R144). -/
def mnemonics : List (Name × Mnemonic) :=
  [("set".toList, .op .set), ("lod".toList, .op .lod), ("str".toList, .op .str), ("psh".toList, .op .psh),
   ("pop".toList, .op .pop), ("bts".toList, .op .bts), ("btc".toList, .op .btc), ("btf".toList, .op .btf),
   ("cal".toList, .op .cal), ("add".toList, .op .add), ("sub".toList, .op .sub), ("mpy".toList, .op .mpy),
   ("div".toList, .op .div), ("mod".toList, .op .mod), ("and".toList, .op .and), ("or".toList, .op .or),
   ("xor".toList, .op .xor), ("shf".toList, .op .shf), ("rot".toList, .op .rot), ("neg".toList, .op .neg),
   ("cmp".toList, .op .cmp), ("djz".toList, .op .djz), ("dly".toList, .op .dly),
   ("jmp".toList, .jump 0b000#3), ("jg".toList, .jump 0b001#3), ("jl".toList, .jump 0b010#3),
   ("jne".toList, .jump 0b011#3), ("je".toList, .jump 0b100#3), ("jge".toList, .jump 0b101#3),
   ("jle".toList, .jump 0b110#3), ("ret".toList, .ret), ("inc".toList, .inc), ("dec".toList, .dec)]

/-- A decimal digit's value. -/
def decDigit (c : Char) : Option Nat :=
  if 48 ≤ c.toNat ∧ c.toNat ≤ 57 then some (c.toNat - 48) else none

/-- A hexadecimal digit's value; letters are already lower case. -/
def hexDigit (c : Char) : Option Nat :=
  if 97 ≤ c.toNat ∧ c.toNat ≤ 102 then some (c.toNat - 87) else decDigit c

/-- The number a run of digits stands for in a base, after the digits read so far; none at a foreign character. -/
def digitsFrom (digit : Char → Option Nat) (base : Nat) : Nat → List Char → Option Nat
  | acc, [] => some acc
  | acc, c :: cs =>
    match digit c with
    | some d => digitsFrom digit base (acc * base + d) cs
    | none => none

/-- A numeric literal: decimal digits, or `0x` and hexadecimal digits (R124). -/
def numeral (t : Name) : Option Nat :=
  match t with
  | [] => none
  | [c] => digitsFrom decDigit 10 0 [c]
  | c :: x :: rest =>
    if c = '0' ∧ x = 'x' then (if rest.isEmpty then none else digitsFrom hexDigit 16 0 rest)
    else digitsFrom decDigit 10 0 (c :: x :: rest)

/-- A parsed line. -/
inductive Line where
  /-- No token: skipped (R121). -/
  | blank
  /-- `!name` (R130). -/
  | label (name : Name)
  /-- `.const NAME VALUE` with the line's negation flag (R132). -/
  | const (name value : Name) (neg : Bool)
  /-- `.var NAME [VALUE]` with the line's negation flag (R133). -/
  | var (name : Name) (value : Option Name) (neg : Bool)
  /-- `.raw V1 V2 ...`, each value with its own sign (R134). -/
  | raw (values : List (Bool × Name))
  /-- An instruction: its registers in order, its one value token with the line's negation flag, and whether the
  value stands before the first register (R139). -/
  | instr (m : Mnemonic) (regs : List Reg) (value : Option Name) (neg valueFirst : Bool)
deriving DecidableEq, Repr

/-- The source lines the spec gives no image for, outside the admitted subset (R148; log 23). -/
inductive AsmRefusal where
  /-- The first token is no mnemonic (R138, U3).  Safe: nothing is claimed of such a source. -/
  | unknownMnemonic
  /-- A label with further tokens on its line (R130, U5).  Safe. -/
  | labelWithMoreTokens
  /-- More registers or values than the mnemonic's shape has (R139, U6).  Safe. -/
  | operandShape
  /-- A `.const` line that is not NAME VALUE, or a `.var` line that is not NAME [VALUE] (R148, U8).  Safe. -/
  | directiveShape
deriving DecidableEq, Repr

/-- The most registers the mnemonic's written forms have (R139; `pop R, R` by 42_stack_and_call.md R86). -/
def Mnemonic.maxRegs : Mnemonic → Nat
  | .op .psh => 1
  | .op .cal => 1
  | .op .dly => 1
  | .op .neg => 1
  | .op _ => 2
  | .jump _ => 1
  | .inc => 1
  | .dec => 1
  | .ret => 0

/-- Whether the mnemonic's written forms have a value (R139). -/
def Mnemonic.takesValue : Mnemonic → Bool
  | .op .pop => false
  | .op .neg => false
  | .op _ => true
  | .jump _ => true
  | .inc => false
  | .dec => false
  | .ret => false

/-- An instruction line's operands: the register tokens in order and the value tokens (R123, R139). -/
def parseOperands (m : Mnemonic) (operands : List Name) (neg : Bool) : Except AsmRefusal Line :=
  let regs := operands.filterMap regOfName
  let vals := operands.filter (fun t => (regOfName t).isNone)
  let first := match operands with
    | [] => false
    | t :: _ => (regOfName t).isNone
  if m.maxRegs < regs.length then .error .operandShape
  else
    match vals with
    | [] => .ok (.instr m regs none neg first)
    | [v] => if m.takesValue then .ok (.instr m regs (some v) neg first) else .error .operandShape
    | _ => .error .operandShape

/-- The class of a line is decided by its first token (R123).  Minus signs that R122 gives no meaning are separators
without effect: any on a label line (`-!x` defines `!x`), and on a `.raw` line those before the directive itself or
with no value directly after them (DESIGN CHOICE, unsafe for such lines; log 24). -/
def parseLine (line : List Char) : Except AsmRefusal Line :=
  let (toks, neg) := lexLine line
  match toks with
  | [] => .ok .blank
  | t :: rest =>
    let names := rest.map Tok.text
    if t.text.head? = some '!' then
      (if rest.isEmpty then .ok (.label t.text) else .error .labelWithMoreTokens)
    else if t.text = ".raw".toList then .ok (.raw (rest.map fun v => (isOdd v.minus, v.text)))
    else if t.text = ".const".toList ∨ t.text = ".constant".toList then
      match names with
      | [name, value] => .ok (.const name value neg)
      | _ => .error .directiveShape
    else if t.text = ".var".toList ∨ t.text = ".variable".toList then
      match names with
      | [name] => .ok (.var name none neg)
      | [name, value] => .ok (.var name (some value) neg)
      | _ => .error .directiveShape
    else
      match mnemonics.lookup t.text with
      | some m => parseOperands m names neg
      | none => .error .unknownMnemonic

/-- Every line of a source, or the first line outside the admitted subset. -/
def parseLines : List (List Char) → Except AsmRefusal (List Line)
  | [] => .ok []
  | l :: ls =>
    match parseLine l with
    | .error e => .error e
    | .ok p =>
      match parseLines ls with
      | .error e => .error e
      | .ok ps => .ok (p :: ps)

end Sys2Proof.Machine
end

