-- ==== Sys2Proof/Machine/Assembler.lean ====
section
/-! DEFINITION. The instruction_encoder (47_assembler_encoder.md): symbol tables and resolution (R125 to R127), the
passes (R128, R129, R136, R137), operand placement and the teeny decision (R139 to R146).  It shares only the
encoding with the engine: an instruction line becomes an `Instr`, and its words are `encode`'s. -/

namespace Sys2Proof.Machine

/-- Labels or variables: name to address, the latest entry first (R125). -/
abbrev AddrTable := List (Name × Nat)

/-- The tables a lookup sees: this pass's constants, variables and labels, and the last pass's variables and labels
(R126, R129; decision D16, log 25).  A constant's value is none when it was defined from an unresolvable one
(R127). -/
structure Tables where
  consts     : List (Name × Option Int)
  vars       : AddrTable
  labels     : AddrTable
  prevVars   : AddrTable
  prevLabels : AddrTable
deriving DecidableEq, Repr

/-- `Resolve(token)`: constant, variable, label, numeral, the first match wins; none is unresolvable (R126, R127). -/
def Tables.resolve (t : Tables) (name : Name) : Option Int :=
  match t.consts.lookup name with
  | some v => v
  | none =>
    match (t.vars.lookup name).or ((t.prevVars.lookup name).or
        ((t.labels.lookup name).or (t.prevLabels.lookup name))) with
    | some a => some (a : Int)
    | none => (numeral name).map fun n => (n : Int)

/-- `Negate` (R129). -/
def negateIf (neg : Bool) (v : Option Int) : Option Int := if neg then v.map (- ·) else v

/-- `Zero`: an unresolvable value is 0 for the encoding (R127, R129). -/
def zeroIfNone (v : Option Int) : Int := v.getD 0

/-! ## Instruction lines -/

/-- The reg1 and reg2 of a line's registers (R139, R145; decision D18, log 31): missing ones are register-zero. -/
def placeRegs (m : Mnemonic) (regs : List Reg) (valueFirst : Bool) : Reg × Reg :=
  match regs with
  | [] => (.rz, .rz)
  | [r] =>
    match m with
    | .op .psh => (.rz, r)
    | .op .cal => (.rz, r)
    | .op .dly => (.rz, r)
    | .op .str => if valueFirst then (.rz, r) else (r, .rz)
    | _ => (r, .rz)
  | r :: r' :: _ => (r, r')

/-- The teeny decision, on the integer: one Word exactly when the value is in -8..7, else two (R140, 30_encoding.md
R62; decision D20); low-4 of a LONG form is 0 (30_encoding.md R61). -/
def chooseForm (op : Opcode) (a b : Reg) (v : Int) : Instr :=
  if fitsTeeny v then Instr.ofTeeny op a b (BitVec.ofInt 4 v) else Instr.ofLong op a b 0#4 (trunc16 v)

/-- The instruction a line stands for, with its value resolved (R139 to R146).  Jumps are always LONG, with their
condition bits in low-4 (R141, R143); `ret` is `pop pc,pc` (R142); `inc` and `dec` add and subtract 1 (R144). -/
def lineInstr (m : Mnemonic) (regs : List Reg) (valueFirst : Bool) (v : Int) : Instr :=
  let (a, b) := placeRegs m regs valueFirst
  match m with
  | .op op => chooseForm op a b v
  | .jump cond => Instr.ofLong .jmp a b (0#1 ++ cond) (trunc16 v)
  | .ret => chooseForm .pop .pc .pc 0
  | .inc => chooseForm .add a .rz 1
  | .dec => chooseForm .sub a .rz 1

/-! ## One pass -/

/-- The state of a pass: its tables, the address counter, the words emitted so far in order, and whether an address
changed (R129). -/
structure PassState where
  tables   : Tables
  addr     : Nat
  out      : List Word
  unstable : Bool
deriving DecidableEq, Repr

/-- Emit words at the address counter (R131). -/
def PassState.emit (p : PassState) (words : List Word) : PassState :=
  { p with out := p.out ++ words, addr := p.addr + words.length }

/-- The Word of a value: `trunc16(Zero(Negate(neg, v)))` (R133, R134). -/
def dataWord (neg : Bool) (v : Option Int) : Word := trunc16 (zeroIfNone (negateIf neg v))

/-- `NAME` of a `.var` line gets the current address, unless it has one in this pass already; a first definition or
another address than the last pass's makes the pass unstable (R129, R133, R136). -/
def PassState.reserveVar (p : PassState) (name : Name) : PassState :=
  match p.tables.vars.lookup name with
  | some _ => p
  | none =>
    { p with
      unstable := p.unstable || p.tables.prevVars.lookup name != some p.addr
      tables := { p.tables with vars := (name, p.addr) :: p.tables.vars } }

/-- What one line does in a pass (R129 to R135).  A `.var` line enters its NAME before it resolves its VALUE, in the
order of R129's pseudocode, so that `.var x x` stores its own address (unless a constant is named `x`). -/
def passLine (p : PassState) : Line → PassState
  | .blank => p
  | .label name =>
    { p with
      unstable := p.unstable || p.tables.prevLabels.lookup name != some p.addr
      tables := { p.tables with labels := (name, p.addr) :: p.tables.labels } }
  | .const name value neg =>
    { p with
      tables := { p.tables with
        consts := (name, negateIf neg (p.tables.resolve value)) :: p.tables.consts } }
  | .var name value neg =>
    let q := p.reserveVar name
    q.emit [dataWord neg (match value with
      | some t => q.tables.resolve t
      | none => some 0)]
  | .raw values => p.emit (values.map fun v => dataWord v.1 (p.tables.resolve v.2))
  | .instr m regs value neg valueFirst =>
    let v := match value with
      | some t => zeroIfNone (negateIf neg (p.tables.resolve t))
      | none => 0
    p.emit (encode (lineInstr m regs valueFirst v))

/-- One pass over all lines, in order, with the tables of the pass before it (R129). -/
def runPass (prevVars prevLabels : AddrTable) (lines : List Line) : PassState :=
  lines.foldl passLine ⟨⟨[], [], [], prevVars, prevLabels⟩, 0, [], false⟩

/-! ## The passes -/

/-- An assembled source: the image, the number of passes run, and whether the last one was stable. -/
structure Assembly where
  image  : List Word
  passes : Nat
  stable : Bool
deriving DecidableEq, Repr

/-- Passes until one changes no address, or until none is left: the image is the last pass's output (R136, R137). -/
def runPasses : (left done : Nat) → (prevVars prevLabels : AddrTable) → List Line → Assembly
  | 0, done, _, _, _ => ⟨[], done, false⟩
  | left + 1, done, prevVars, prevLabels, lines =>
    let p := runPass prevVars prevLabels lines
    if p.unstable = false ∨ left = 0 then ⟨p.out, done + 1, !p.unstable⟩
    else runPasses left (done + 1) p.tables.vars p.tables.labels lines

/-- `assemble(text)` (R120, R129), with what the host may also want to know of the run. -/
def assemble (text : List Char) : Except AsmRefusal Assembly :=
  match parseLines (splitLines text) with
  | .error e => .error e
  | .ok lines => .ok (runPasses Config.maxPasses 0 [] [] lines)

/-- The image as the bytes the assembler emits (20_memory.md R33). -/
def assembleBytes (text : List Char) : Except AsmRefusal (List Byte) :=
  match assemble text with
  | .error e => .error e
  | .ok r => .ok (bytesOfWords r.image)

end Sys2Proof.Machine
end

