-- ==== Sys2Proof/Machine/Launch.lean ====
section
/-! DEFINITION. The host's side of the interface (00_scope.md R6): `loadImage`, `reset` and `tick` over an engine
that retains its image (70_reset_and_hazards.md R176 to R180).  The bus hooks are the free values of Config. -/

namespace Sys2Proof.Machine

/-- RAM after a sequence of Words is stored from Word address `a` upward (R176). -/
def Memory.storeWords (m : Memory) (a : Nat) : List Word → Memory
  | [] => m
  | w :: ws => Memory.storeWords (Memory.writeWord m a w) (a + 1) ws

/-- RAM that holds an image from address 0 and zero beyond it (R176, 10_state.md R17). -/
def Memory.ofImage (image : List Word) : Memory := Memory.storeWords [] 0 image

/-- `ResetState()` with an image: every field at its reset value, then the image in RAM (R176).  The output events
are the environment's history, which a reset does not touch (R177; log 5). -/
def State.resetState (s : State) (image : List Word) : State :=
  { State.reset with mem := Memory.ofImage image, events := s.events }

/-- A loaded engine: the image `loadImage` retained (10_state.md R25; decision D25) and the engine's state. -/
structure Launch where
  image : List Word
  state : State
deriving DecidableEq, Repr

/-- What the host does to the block between ticks (00_scope.md R6, 20_memory.md R33). -/
inductive HostEvent where
  /-- `loadImage` of a sequence of Words. -/
  | loadImage (words : List Word)
  /-- `loadImage` of a byte stream, little-endian. -/
  | loadBytes (bytes : List Byte)
  /-- `reset()`. -/
  | reset
  /-- `tick()`. -/
  | tick
deriving DecidableEq, Repr

/-- Why the model gives an event of the host no meaning; each is a point the spec leaves unspecified (log 7). -/
inductive HostRefusal where
  /-- A tick or a reset before the first `loadImage` (R180, U9).  Safe: nothing is claimed of such an engine. -/
  | notLoaded
  /-- An image of more than 32768 Words (R176, U10).  Safe. -/
  | imageTooLong
  /-- A byte stream of odd length is no image (20_memory.md R33, U10).  Safe. -/
  | oddBytes
  /-- A step that stops; no instruction does (60_exceptions.md R173).  Safe. -/
  | stopped
deriving DecidableEq, Repr

/-- `loadImage(words)`: retain the image and initialise (R176).  The events of an earlier load stay recorded. -/
def Launch.load (before : Option Launch) (image : List Word) : Except HostRefusal Launch :=
  if image.length ≤ Config.ramSize then
    let s := match before with
      | some l => l.state
      | none => State.reset
    .ok ⟨image, s.resetState image⟩
  else .error .imageTooLong

/-- `reset()`: `ResetState()` with the retained image (R177; decision D25, log 22).  It can come between any two
ticks, delay cycles pending or not (R178). -/
def Launch.reset (l : Launch) : Launch := { l with state := l.state.resetState l.image }

/-- `tick()` on a loaded engine (40_fetch_decode_execute_cycle.md R75). -/
def Launch.tick (l : Launch) : Except HostRefusal Launch :=
  match step l.state with
  | .next t => .ok { l with state := t }
  | .fault _ => .error .stopped
  | .refused _ => .error .stopped

/-- The engine, loaded or not, after one event of the host (00_scope.md R6; R180). -/
def Launch.apply : Option Launch → HostEvent → Except HostRefusal Launch
  | l, .loadImage words => Launch.load l words
  | l, .loadBytes bytes =>
    match wordsOfBytes bytes with
    | some words => Launch.load l words
    | none => .error .oddBytes
  | some l, .reset => .ok l.reset
  | some l, .tick => l.tick
  | none, .reset => .error .notLoaded
  | none, .tick => .error .notLoaded

end Sys2Proof.Machine
end

