-- ==== Sys2Proof/Safety.lean ====
section
/-! DEFINITION. The terms the claims use: the invariant, what an instruction leaves unchanged, which instructions may
write what (10_state.md R15, R16; 30_encoding.md R57), the end of a run (70_reset_and_hazards.md R183), and runs.
There is no unsafe outcome to exclude: every tick succeeds (60_exceptions.md R173). -/

namespace Sys2Proof.Machine

/-! ## The invariant -/

/-- At most one flag is true: exactly one after any flag update, none before the first (10_state.md R16). -/
def Flags.atMostOne (f : Flags) : Bool :=
  !(f.equals && f.less) && !(f.equals && f.greater) && !(f.less && f.greater)

/-- What every step keeps: RAM is in its canonical form, register-zero reads 0 between ticks (10_state.md R14), and
at most one flag is true (R16). -/
def State.inv (s : State) : Bool := Memory.wf s.mem && (s.getReg .rz == 0#16) && s.flags.atMostOne

/-! ## What is unchanged -/

/-- Every register outside `rs` is unchanged. -/
def SameRegs (s t : State) (rs : List Reg) : Prop := ∀ r, r ∉ rs → t.getReg r = s.getReg r

/-- Every byte of RAM is unchanged. -/
def SameRam (s t : State) : Prop := ∀ k, Memory.readByte t.mem k = Memory.readByte s.mem k

/-- Every byte of RAM outside the two bytes of the Word at Word address `a` is unchanged. -/
def SameRamBut (s t : State) (a : Nat) : Prop :=
  ∀ k, k ≠ 2 * a → k ≠ 2 * a + 1 → Memory.readByte t.mem k = Memory.readByte s.mem k

/-- The instruction register and the cycle counter are unchanged: no `Execute` writes them (10_state.md R20, R21). -/
def SameHidden (s t : State) : Prop := t.ir = s.ir ∧ t.cycles = s.cycles

/-- Flags, delay counter and output events are unchanged. -/
def SameFlagsDelayEvents (s t : State) : Prop := t.flags = s.flags ∧ t.delay = s.delay ∧ t.events = s.events

/-- An instruction that writes registers `rs` and flags only, at most: RAM, counters, IR and outputs unchanged. -/
def OnlyRegsAndFlags (s t : State) (rs : List Reg) : Prop :=
  SameRegs s t rs ∧ SameRam s t ∧ SameHidden s t ∧ t.delay = s.delay ∧ t.events = s.events

/-- The flags judge a result as 40_fetch_decode_execute_cycle.md R73 says: equals for 0x0000, greater for
0x0001..0x7FFF, less for 0x8000..0xFFFF. -/
def FlagsJudge (f : Flags) (v : Word) : Prop :=
  (f.equals = true ↔ v.toNat = 0) ∧ (f.less = true ↔ 0x8000 ≤ v.toNat) ∧
  (f.greater = true ↔ 1 ≤ v.toNat ∧ v.toNat ≤ 0x7FFF)

/-- The instruction writes `v` to register `a` and the flags that judge `v`, and changes nothing else. -/
def WritesAndJudges (i : Instr) (s : State) (a : Reg) (v : Word) : Prop :=
  ∃ t, exec i s = .next t ∧ t.getReg a = v ∧ FlagsJudge t.flags v ∧ OnlyRegsAndFlags s t [a]

/-- The instruction changes nothing at all. -/
def ChangesNothing (i : Instr) (s : State) : Prop := exec i s = .next s

/-- The words of an instruction: opcode in bits 15:11, the register fields, and the immediate in low-4 of the one
Word of a TEENY form or in the second Word of a LONG form (30_encoding.md R50 to R53). -/
def EncodedAs (i : Instr) (code : BitVec 5) (a b : Reg) (v : Int) : Prop :=
  ∃ w, opcodeField w = code ∧ reg1Field w = a.index ∧ reg2Field w = b.index ∧
    ((teenyField w = true ∧ low4Field w = BitVec.ofInt 4 v ∧ encode i = [w]) ∨
     (teenyField w = false ∧ encode i = [w, trunc16 v]))

/-- The reset values of 10_state.md R26 with an image in RAM; `IR`, which R26 leaves unspecified, is not named. -/
def IsResetState (s : State) (image : List Word) : Prop :=
  s.getReg .pc = 0x0000#16 ∧ s.getReg .sp = 0x7FFF#16 ∧ (∀ r, r ≠ .sp → s.getReg r = 0#16) ∧
  s.flags = ⟨false, false, false⟩ ∧ s.delay = 0 ∧ s.cycles = 0 ∧
  (∀ a (h : a < image.length), Memory.readWord s.mem a = image[a]) ∧
  (∀ a, image.length ≤ a → a < 0x8000 → Memory.readWord s.mem a = 0#16)

end Sys2Proof.Machine

namespace Sys2Proof

/-! ## Which instructions may write or read what -/

/-- The opcodes that write flags (10_state.md R16). -/
def Opcode.writesFlags : Opcode → Bool
  | .add | .sub | .mpy | .and | .or | .xor | .div | .mod | .cmp | .neg | .shf | .djz | .bts | .btc | .btf => true
  | .set | .lod | .str | .psh | .pop | .cal | .rot | .jmp | .dly => false
  | .reserved24 | .reserved25 | .reserved26 | .reserved27 | .reserved28 | .reserved29 | .reserved30
  | .reserved31 => false

/-- The reserved opcode values 24..31 (30_encoding.md R58). -/
def Opcode.isReserved : Opcode → Bool
  | .reserved24 | .reserved25 | .reserved26 | .reserved27 | .reserved28 | .reserved29 | .reserved30
  | .reserved31 => true
  | .set | .lod | .str | .psh | .pop | .bts | .btc | .btf | .cal | .add | .sub | .mpy | .div | .mod | .and | .or
  | .xor | .shf | .rot | .neg | .cmp | .jmp | .djz | .dly => false

/-- The registers an instruction may write, by the table of 10_state.md R15 (the advance of pc and the forcing of
register-zero are the tick's). -/
def Instr.mayWrite (i : Instr) : List Reg :=
  match i.fields.opcode with
  | .set | .lod | .add | .sub | .mpy | .div | .mod | .and | .or | .xor | .shf | .neg => [i.fields.reg1]
  | .str | .rot | .cmp | .dly => []
  | .psh => [.sp]
  | .pop => [.sp, i.fields.reg1]
  | .bts | .btc | .btf => [i.fields.reg2]
  | .cal => [.sp, .pc]
  | .jmp => [.pc]
  | .djz => [i.fields.reg1, .pc]
  | .reserved24 | .reserved25 | .reserved26 | .reserved27 | .reserved28 | .reserved29 | .reserved30
  | .reserved31 => []

/-- The opcodes that store to RAM (20_memory.md R41). -/
def Opcode.storesToRam : Opcode → Bool
  | .str | .psh | .cal => true
  | .set | .lod | .pop | .bts | .btc | .btf | .add | .sub | .mpy | .div | .mod | .and | .or
  | .xor | .shf | .rot | .neg | .cmp | .jmp | .djz | .dly => false
  | .reserved24 | .reserved25 | .reserved26 | .reserved27 | .reserved28 | .reserved29 | .reserved30
  | .reserved31 => false

/-- The opcodes that ignore reg1 (30_encoding.md R57; a reserved opcode ignores every field, R118). -/
def Opcode.ignoresReg1 : Opcode → Bool
  | .psh | .cal | .dly | .bts | .btc | .btf | .rot => true
  | op => op.isReserved

/-- The opcodes that ignore reg2 (R57, R118). -/
def Opcode.ignoresReg2 : Opcode → Bool
  | .pop | .neg | .jmp | .rot => true
  | op => op.isReserved

/-- The opcodes that ignore the immediate (R57, R118). -/
def Opcode.ignoresImm : Opcode → Bool
  | .pop | .neg | .rot => true
  | op => op.isReserved

/-- The Word address a LOD or STR forms, when the instruction is one (20_memory.md R34). -/
def Instr.busAddress (i : Instr) (s : Machine.State) : Option Word :=
  match i.fields.opcode with
  | .lod => some (s.regPlusImm i.fields.reg2 i.fields.imm)
  | .str => some (s.regPlusImm i.fields.reg1 i.fields.imm)
  | _ => none

/-- An address as a RAM address, when it is one (20_memory.md R34). -/
def ramAddr (a : Word) : Option Nat := if a.toNat < 0x8000 then some a.toNat else none

/-- The RAM address an instruction stores to and the Word it stores there, when it stores one: STR below 0x8000
(41_data_movement.md R82), PSH and CAL at sp modulo 0x8000 (42_stack_and_call.md R85, R87). -/
def Instr.ramStore (i : Instr) (s : Machine.State) : Option (Nat × Word) :=
  match i.fields.opcode with
  | .str => (ramAddr (s.regPlusImm i.fields.reg1 i.fields.imm)).map (·, s.getReg i.fields.reg2)
  | .psh => some ((s.getReg .sp).toNat % 0x8000, s.opnd i.fields.reg2 i.fields.imm)
  | .cal => some ((s.getReg .sp).toNat % 0x8000, s.getReg .pc)
  | _ => none

/-- The RAM address an instruction loads from and the register it loads, when it loads one: LOD below 0x8000
(41_data_movement.md R81), POP at sp plus 1 modulo 0x8000 (42_stack_and_call.md R86). -/
def Instr.ramLoad (i : Instr) (s : Machine.State) : Option (Nat × Reg) :=
  match i.fields.opcode with
  | .lod => (ramAddr (s.opnd i.fields.reg2 i.fields.imm)).map (·, i.fields.reg1)
  | .pop => some (((s.getReg .sp).toNat + 1) % 0x8000, i.fields.reg1)
  | _ => none

end Sys2Proof

namespace Sys2Proof.Machine

/-! ## The words at pc -/

/-- The address the next fetch reads: pc modulo 0x8000 (40_fetch_decode_execute_cycle.md R66). -/
def State.fetchAddr (s : State) : Nat := (s.getReg .pc).toNat % 0x8000

/-- The instruction word there (R67). -/
def State.fetchWord1 (s : State) : Word := Memory.readWord s.mem s.fetchAddr

/-- The Word after it, modulo 0x8000 (R69). -/
def State.fetchWord2 (s : State) : Word := Memory.readWord s.mem ((s.fetchAddr + 1) % 0x8000)

/-! ## Runs -/

/-- The state of an answer, when it is one. -/
def nextOf : Result → Option State
  | .next t => some t
  | .fault _ => none
  | .refused _ => none

/-- Whether the tick at a state stores to the RAM address `a`: no delay is pending, and the instruction fetched there
stores to it. -/
def State.tickStoresTo (s : State) (a : Nat) : Bool :=
  s.delay == 0 && (s.fetch.2.ramStore s.fetch.1).map Prod.fst == some a

/-- The state after `n` ticks none of which stores to the RAM address `a`; none when one does. -/
def ticksAvoiding (a : Nat) : Nat → State → Option State
  | 0, s => some s
  | n + 1, s => if s.tickStoresTo a then none else (nextOf (step s)).bind (ticksAvoiding a n)

/-- From `t`, which a store of `v` to the RAM address `addr` has made of `s`: each of the two Words of the next
fetch is `v` where its address is `addr` and else what RAM held before the store, and when the delay pending at `t`
has elapsed the next tick executes the instruction they decode to (20_memory.md R45). -/
def FetchSeesStore (s t : State) (addr : Nat) (v : Word) : Prop :=
  t.fetchWord1 = (if t.fetchAddr = addr then v else Memory.readWord s.mem t.fetchAddr) ∧
  t.fetchWord2 = (if (t.fetchAddr + 1) % 0x8000 = addr then v
    else Memory.readWord s.mem ((t.fetchAddr + 1) % 0x8000)) ∧
  ∃ u : State, Sys2Proof.core.run t.delay t = .next u ∧ u.delay = 0 ∧
    u.fetch.2 = decodeWords t.fetchWord1 t.fetchWord2 ∧ ∃ w, step u = .next w ∧ w.ir = t.fetchWord1

/-- A run that drops timing: the pending delay cycles are discarded after each instruction (70_reset_and_hazards.md
R184). -/
def untimedRun : Nat → State → Result
  | 0, s => .next s
  | n + 1, s =>
    match step s with
    | .next t => untimedRun n (t.setDelay 0)
    | .fault r => .fault r
    | .refused r => .refused r

/-- `n` ticks of a loaded engine (00_scope.md R6). -/
def Launch.ticks : Nat → Launch → Except HostRefusal Launch
  | 0, l => .ok l
  | n + 1, l =>
    match l.tick with
    | .ok l' => Launch.ticks n l'
    | .error e => .error e

/-- The end of a run: about to fetch, with no delay pending, a LONG unconditional jump whose target is its own
address (70_reset_and_hazards.md R183; decision D13, log 30). -/
def State.atEnd (s : State) : Bool :=
  s.delay == 0 && decide ((s.getReg .pc).toNat < 0x8000) && s.fetchWord1 == 0xA920#16 &&
    s.fetchWord2 == s.getReg .pc

/-- Execute one PSH for each register and immediate, in order; the Words pushed, and the state after. -/
def pushAll : List (Reg × Int) → State → Option (List Word × State)
  | [], s => some ([], s)
  | (r, v) :: rest, s =>
    match nextOf (exec (.pshLong .rz r 0#4 v) s) with
    | some t => (pushAll rest t).map fun p => (s.opnd r v :: p.1, p.2)
    | none => none

/-- Execute one POP into each register, in order; the Words read there after each, and the state after. -/
def popAll : List Reg → State → Option (List Word × State)
  | [], s => some ([], s)
  | r :: rest, s =>
    match nextOf (exec (.popTeeny r .rz 0) s) with
    | some t => (popAll rest t).map fun p => (t.getReg r :: p.1, p.2)
    | none => none

/-! ## Lines of a source -/

/-- The register fields of an instruction's words. -/
def HasRegs (i : Instr) (a b : Reg) : Prop := i.fields.reg1 = a ∧ i.fields.reg2 = b

/-- The name a line enters in the constant or the variable table (47_assembler_encoder.md R132, R133). -/
def Line.valueName : Line → Option Name
  | .const name _ _ => some name
  | .var name _ _ => some name
  | .blank => none
  | .label _ => none
  | .raw _ => none
  | .instr _ _ _ _ _ => none

end Sys2Proof.Machine
end

