-- ==== Sys2Proof/Certificates/Slice0/Obligations.lean ====
section
/-! DEFINITION. The statements for the provers.  A statement that rests on one of the spec's own decisions D<n>
(spec/92_eei_decisions.md) says so and names the log entry. -/

open Sys2Proof Sys2Proof.Machine

/-- The table of 10_state.md R26, after `loadImage` and after `reset`, at any state of the engine; that a reset puts the retained image back in RAM is the spec's own decision D25 (10_state.md R25, 70_reset_and_hazards.md R177; log 22, DESIGN CHOICE). -/
def Obligations.LoadAndResetGiveResetState : Prop :=
  ∀ (before : Option Launch) (image : List Word), image.length ≤ 0x8000 →
    ∃ l, Launch.load before image = .ok l ∧ IsResetState l.state image ∧
      ∀ t : State, IsResetState (Launch.reset { l with state := t }).state image

/-- 70_reset_and_hazards.md R177; that the retained image is loaded again is the spec's own decision D25 (log 22). -/
def Obligations.ResetAfterAnyRunMatchesLoad : Prop :=
  ∀ (before : Option Launch) (image : List Word) (l l' : Launch) (n : Nat),
    Launch.load before image = .ok l → Launch.ticks n l = .ok l' →
      l'.reset.image = image ∧ { l'.reset.state with events := l.state.events } = l.state

/-- The invariant at the model's reset state (10_state.md R14, R16, R26). -/
def Obligations.ModelInvariantHoldsAtReset : Prop :=
  State.reset.inv = true

/-- No bit of an encoding is dropped (30_encoding.md R50 to R58). -/
def Obligations.DecodeOfEncodeIsIdentity : Prop :=
  ∀ (i : Instr) (rest : List Word), i.wellFormed = true → decode (encode i ++ rest) = .ok (i, rest)

/-- There is no illegal encoding and a decoder is total (30_encoding.md R60). -/
def Obligations.EveryWordPairIsAnInstruction : Prop :=
  ∀ w1 w2 : Word, (decodeWords w1 w2).wellFormed = true ∧
    encode (decodeWords w1 w2) = if teenyField w1 then [w1] else [w1, w2]

/-- The layout of the instruction word (30_encoding.md R51). -/
def Obligations.InstructionWordIsSumOfFields : Prop :=
  ∀ i : Instr, ∃ w rest, encode i = w :: rest ∧ rest.length = (if i.fields.teeny then 0 else 1) ∧
    w.toNat = i.fields.opcode.code.toNat * 2048 + (if i.fields.teeny then 1 else 0) * 1024 +
      i.fields.reg1.index.toNat * 128 + i.fields.reg2.index.toNat * 16 + i.fields.low4.toNat

/-- Words the spec itself writes out (41 to 46, 95_test_vectors.md F12); a sanity statement.  Register names and condition bits are decisions D1 and D2 (log 15). -/
def Obligations.SpecWordsDecodeAsWritten : Prop :=
  decodeWords 0x05A5#16 0#16 = .setTeeny .ra .rz 5 ∧ decodeWords 0x0DC2#16 0#16 = .lodTeeny .ra .rb 2 ∧
  decodeWords 0x15C1#16 0#16 = .strTeeny .ra .rb 1 ∧ decodeWords 0x2400#16 0#16 = .popTeeny .pc .pc 0 ∧
  decodeWords 0x4120#16 0x0020#16 = .calLong .rz .rz 0#4 0x20 ∧
  decodeWords 0x71A0#16 0x00FF#16 = .andLong .ra .rz 0#4 0xFF ∧
  decodeWords 0x8DAC#16 0#16 = .shfTeeny .ra .rz (-4) ∧
  decodeWords 0xA924#16 0x0010#16 = .jmpLong .rz .rz false 0b100#3 0x10 ∧
  decodeWords 0xB5C1#16 0#16 = .djzTeeny .ra .rb 1 ∧ decodeWords 0xFFFF#16 0#16 = .reserved31Teeny .re .re (-1)

/-- 20_memory.md R33; little-endian is the spec's own decision D12 (log 1). -/
def Obligations.ImageBytesRoundTrip : Prop :=
  (∀ ws : List Word, wordsOfBytes (bytesOfWords ws) = some ws ∧ (bytesOfWords ws).length = 2 * ws.length ∧
      ∀ k (h : k < ws.length), (bytesOfWords ws)[2 * k]? = some (ws[k].extractLsb' 0 8) ∧
        (bytesOfWords ws)[2 * k + 1]? = some (ws[k].extractLsb' 8 8)) ∧
    (∀ bs : List Byte, bs.length % 2 = 1 → wordsOfBytes bs = none)

/-- The ignored fields of 30_encoding.md R57, and every field of a reserved opcode (46 R118). -/
def Obligations.UnusedFieldsAreIgnored : Prop :=
  ∀ (w1 w2 w1' w2' : Word) (s : State),
    opcodeField w1 = opcodeField w1' → teenyField w1 = teenyField w1' →
    ((Opcode.ofCode (opcodeField w1)).ignoresReg1 = false → reg1Field w1 = reg1Field w1') →
    ((Opcode.ofCode (opcodeField w1)).ignoresReg2 = false → reg2Field w1 = reg2Field w1') →
    ((Opcode.ofCode (opcodeField w1)).ignoresImm = false →
      if teenyField w1 then low4Field w1 = low4Field w1' else w2 = w2') →
    (Opcode.ofCode (opcodeField w1) = .jmp →
      (low4Field w1).extractLsb' 0 3 = (low4Field w1').extractLsb' 0 3) →
    exec (decodeWords w1 w2) s = exec (decodeWords w1' w2') s

/-- 30_encoding.md R62: either form has the same architectural effect. -/
def Obligations.TeenyAndLongFormsAgree : Prop :=
  ∀ (op : Opcode) (a b : Reg) (n l : BitVec 4) (w : Word) (s : State), op ≠ .jmp → sext4 n = imm16 w →
    exec (Instr.ofTeeny op a b n) s = exec (Instr.ofLong op a b l w) s

/-- 40_fetch_decode_execute_cycle.md R65. -/
def Obligations.BusyTickOnlyCountsDown : Prop :=
  ∀ s : State, s.delay ≠ 0 → ∃ t, step s = .next t ∧ t.delay + 1 = s.delay ∧ SameRegs s t [] ∧ t.flags = s.flags ∧
    SameRam s t ∧ SameHidden s t ∧ t.events = s.events

/-- The whole tick (40_fetch_decode_execute_cycle.md R75); decisions D29 (log 14), D9 (log 11), D23 (log 18) are the spec's own. -/
def Obligations.TickRunsDecodedInstruction : Prop :=
  ∀ s : State, s.delay = 0 →
    step s = finishTick (exec (decodeWords s.fetchWord1 s.fetchWord2)
      { s with
        regs := s.regs.set .pc (BitVec.ofNat 16 (s.fetchAddr + if teenyField s.fetchWord1 then 1 else 2))
        ir := s.fetchWord1
        delay := if teenyField s.fetchWord1 then 0 else 1 }) ∧
    ∀ t : State, finishTick (.next t) = .next { t with regs := t.regs.set .rz 0#16, cycles := t.cycles + 1 }

/-- 60_exceptions.md R160, R173: a tick always succeeds. -/
def Obligations.EveryTickSucceeds : Prop :=
  ∀ s : State, ∃ t, step s = .next t

/-- 40_fetch_decode_execute_cycle.md R71. -/
def Obligations.RegisterZeroForcedAfterInstruction : Prop :=
  ∀ s : State, s.delay = 0 → ∃ t, step s = .next t ∧ t.getReg .rz = 0#16

/-- The invariant over all states, not only the reachable ones (10_state.md R14, R16; 20_memory.md R34, R40). -/
def Obligations.InvariantKeptByEveryTick : Prop :=
  ∀ s t : State, s.inv = true → step s = .next t → t.inv = true

/-- R65 repeated: an instruction occupies one tick and the delay left after it (70_reset_and_hazards.md R185). -/
def Obligations.PendingDelayElapses : Prop :=
  ∀ s : State, Sys2Proof.core.run s.delay s = .next (s.setDelay 0)

/-- The table of 40_fetch_decode_execute_cycle.md R79; D8 and D11 (log 19) are the spec's own decisions; the hook's answer is free (20_memory.md R36, R37; log 4). -/
def Obligations.DelayAccounting : Prop :=
  ∀ (i : Instr) (s t : State), exec i s = .next t →
    match i.busAddress s with
    | some addr =>
      if addr.toNat < 0x8000 then t.delay = s.delay + Config.busDelay
      else if i.fields.opcode = .lod then
        t.delay = s.delay + (Config.busReadDelay s.events s.cycles addr).toNat + Config.busDelay ∧
        ∃ data, t.events = Event.busRead addr data (Config.busReadDelay s.events s.cycles addr) :: s.events
      else
        t.delay = s.delay + (Config.busWriteDelay s.events s.cycles addr (s.getReg i.fields.reg2)).toNat +
          Config.busDelay ∧
        t.events = Event.busWrite addr (s.getReg i.fields.reg2)
          (Config.busWriteDelay s.events s.cycles addr (s.getReg i.fields.reg2)) :: s.events
    | none =>
      if i.fields.opcode = .dly ∧ 1 ≤ (s.opnd i.fields.reg2 i.fields.imm).toNat then
        t.delay + 1 = (s.opnd i.fields.reg2 i.fields.imm).toNat
      else t.delay = s.delay

/-- 40_fetch_decode_execute_cycle.md R74; that a busy tick does not count is decision D23 (log 18). -/
def Obligations.CyclesCountExecutingTicks : Prop :=
  ∀ s t : State, step s = .next t → t.cycles = s.cycles + if s.delay = 0 then 1 else 0

/-- 70_reset_and_hazards.md R184: a model that drops timing computes the same sequences.  It rests on the model's choice that a bus answer depends on the history and not on elapsed ticks (log 4, DESIGN CHOICE) and on the spec's own decision D23 (log 18). -/
def Obligations.UntimedRunMatchesTimedRun : Prop :=
  ∀ (n : Nat) (s t : State), s.delay = 0 → untimedRun n s = .next t →
    ∃ m, n ≤ m ∧ Sys2Proof.core.run m s = .next t

/-- 70_reset_and_hazards.md R183; the definition of the end is the spec's own decision D13 (log 30), and the place of the second Word at pc 0x7FFF is D9 (log 11). -/
def Obligations.EndOfRunIsStable : Prop :=
  ∀ (n : Nat) (s : State), s.atEnd = true → s.getReg .rz = 0#16 →
    ∃ t : State, Sys2Proof.core.run n s = .next t ∧ SameRegs s t [] ∧ t.flags = s.flags ∧ SameRam s t ∧
      t.events = s.events

/-- 40_fetch_decode_execute_cycle.md R73. -/
def Obligations.FlagsJudgeTheResult : Prop :=
  ∀ (s : State) (v : Word), FlagsJudge (s.setFlags v).flags v ∧
    ((s.setFlags v).flags = ⟨true, false, false⟩ ∨ (s.setFlags v).flags = ⟨false, true, false⟩ ∨
     (s.setFlags v).flags = ⟨false, false, true⟩)

/-- 10_state.md R16; D7 (log 10) and D22 (log 17) are the spec's own decisions. -/
def Obligations.OnlyListedOpcodesWriteFlags : Prop :=
  ∀ (i : Instr) (s t : State), exec i s = .next t →
    t.flags = s.flags ∨ (i.fields.opcode.writesFlags = true ∧ ∃ v, FlagsJudge t.flags v)

/-- 20_memory.md R41: nothing but the engine's own STR, PSH and CAL changes RAM. -/
def Obligations.OnlyStrPshCalChangeRam : Prop :=
  ∀ (i : Instr) (s t : State), exec i s = .next t →
    SameRam s t ∨
    (i.fields.opcode.storesToRam = true ∧
      (i.fields.opcode = .str → (s.regPlusImm i.fields.reg1 i.fields.imm).toNat < 0x8000 ∧
        SameRamBut s t (s.regPlusImm i.fields.reg1 i.fields.imm).toNat) ∧
      (i.fields.opcode ≠ .str → SameRamBut s t ((s.getReg .sp).toNat % 0x8000)))

/-- 20_memory.md R38, R39, R40, 41 R83, 46 R118. -/
def Obligations.OutputEventsOnlyAsSpecified : Prop :=
  ∀ (i : Instr) (s t : State), exec i s = .next t →
    match i.busAddress s with
    | some addr =>
      if addr.toNat < 0x8000 then t.events = s.events
      else if i.fields.opcode = .lod then
        ∃ data d, t.events = Event.busRead addr data d :: s.events
      else ∃ d, t.events = Event.busWrite addr (s.getReg i.fields.reg2) d :: s.events
    | none =>
      if i.fields.opcode.isReserved then t.events = Event.report i.fields.opcode.code :: s.events
      else t.events = s.events

/-- The table of 10_state.md R15. -/
def Obligations.RegistersWrittenOnlyAsTabulated : Prop :=
  ∀ (i : Instr) (s t : State), exec i s = .next t → SameRegs s t i.mayWrite ∧ SameHidden s t

/-- 41_data_movement.md R80; decisions D4 (log 16) and D22 (log 17) are the spec's own. -/
def Obligations.SetWritesOperand : Prop :=
  ∀ (s : State) (a b : Reg) (l : BitVec 4) (v : Int), ∀ i ∈ [Instr.setTeeny a b v, Instr.setLong a b l v], EncodedAs i 0 a b v ∧
    ∃ t, exec i s = .next t ∧ ((t.getReg a).toNat : Int) = ((s.getReg b).toNat + v) % 65536 ∧
      SameRegs s t [a] ∧ SameRam s t ∧ SameHidden s t ∧ SameFlagsDelayEvents s t

/-- 41_data_movement.md R81, RAM side; decision D5 (log 16). -/
def Obligations.LodReadsRam : Prop :=
  ∀ (s : State) (a b : Reg) (l : BitVec 4) (v : Int), (s.opnd b v).toNat < 0x8000 → ∀ i ∈ [Instr.lodTeeny a b v, Instr.lodLong a b l v], EncodedAs i 1 a b v ∧
    ∃ t, exec i s = .next t ∧ t.getReg a = Memory.readWord s.mem (s.opnd b v).toNat ∧ SameRegs s t [a] ∧
      SameRam s t ∧ SameHidden s t ∧ t.flags = s.flags ∧ t.events = s.events ∧
      t.delay = s.delay + Config.busDelay

/-- 41_data_movement.md R81, bus side; decision D5 (log 16); the answer is free (log 4). -/
def Obligations.LodReadsBus : Prop :=
  ∀ (s : State) (a b : Reg) (l : BitVec 4) (v : Int), 0x8000 ≤ (s.opnd b v).toNat → ∀ i ∈ [Instr.lodTeeny a b v, Instr.lodLong a b l v],
    ∃ t data d, exec i s = .next t ∧ t.events = Event.busRead (s.opnd b v) data d :: s.events ∧
      t.getReg a = data ∧ SameRegs s t [a] ∧ SameRam s t ∧ SameHidden s t ∧ t.flags = s.flags ∧
      t.delay = s.delay + d.toNat + Config.busDelay

/-- 41_data_movement.md R82, RAM side; decision D5 (log 16). -/
def Obligations.StrWritesRam : Prop :=
  ∀ (s : State) (a b : Reg) (l : BitVec 4) (v : Int), Memory.wf s.mem = true → (s.regPlusImm a v).toNat < 0x8000 → ∀ i ∈ [Instr.strTeeny a b v, Instr.strLong a b l v],
    EncodedAs i 2 a b v ∧
    ∃ t, exec i s = .next t ∧ Memory.readWord t.mem (s.regPlusImm a v).toNat = s.getReg b ∧
      SameRamBut s t (s.regPlusImm a v).toNat ∧ SameRegs s t [] ∧ SameHidden s t ∧ t.flags = s.flags ∧
      t.events = s.events ∧ t.delay = s.delay + Config.busDelay

/-- 41_data_movement.md R82, bus side; decision D5 (log 16); the answer is free (log 4). -/
def Obligations.StrWritesBus : Prop :=
  ∀ (s : State) (a b : Reg) (l : BitVec 4) (v : Int), 0x8000 ≤ (s.regPlusImm a v).toNat → ∀ i ∈ [Instr.strTeeny a b v, Instr.strLong a b l v],
    ∃ t d, exec i s = .next t ∧ t.events = Event.busWrite (s.regPlusImm a v) (s.getReg b) d :: s.events ∧
      SameRegs s t [] ∧ SameRam s t ∧ SameHidden s t ∧ t.flags = s.flags ∧
      t.delay = s.delay + d.toNat + Config.busDelay

/-- 42_stack_and_call.md R85; decisions D10 (log 12), D24 (log 13), D5 (log 16) are the spec's own. -/
def Obligations.PshStoresThenDecrements : Prop :=
  ∀ (s : State) (a b : Reg) (l : BitVec 4) (v : Int), Memory.wf s.mem = true → ∀ i ∈ [Instr.pshTeeny a b v, Instr.pshLong a b l v], EncodedAs i 3 a b v ∧
    ∃ t, exec i s = .next t ∧
      ((Memory.readWord t.mem ((s.getReg .sp).toNat % 0x8000)).toNat : Int) =
        ((s.getReg b).toNat + v) % 65536 ∧
      (t.getReg .sp).toNat = ((s.getReg .sp).toNat + 0x7FFF) % 0x8000 ∧ SameRegs s t [.sp] ∧
      SameRamBut s t ((s.getReg .sp).toNat % 0x8000) ∧ SameHidden s t ∧ SameFlagsDelayEvents s t

/-- 42_stack_and_call.md R86; decision D24 (log 13) is the spec's own. -/
def Obligations.PopIncrementsThenLoads : Prop :=
  ∀ (s : State) (a b : Reg) (l : BitVec 4) (v : Int), ∀ i ∈ [Instr.popTeeny a b v, Instr.popLong a b l v], EncodedAs i 4 a b v ∧
    ∃ t, exec i s = .next t ∧ t.getReg a = Memory.readWord s.mem (((s.getReg .sp).toNat + 1) % 0x8000) ∧
      (a ≠ .sp → (t.getReg .sp).toNat = ((s.getReg .sp).toNat + 1) % 0x8000) ∧
      SameRegs s t [.sp, a] ∧ SameRam s t ∧ SameHidden s t ∧ SameFlagsDelayEvents s t

/-- 42_stack_and_call.md R87; decisions D24 (log 13), D27 (log 21), D10 (log 12) are the spec's own. -/
def Obligations.CalPushesPcAndJumps : Prop :=
  ∀ (s : State) (a b : Reg) (l : BitVec 4) (v : Int), Memory.wf s.mem = true → ∀ i ∈ [Instr.calTeeny a b v, Instr.calLong a b l v], EncodedAs i 8 a b v ∧
    ∃ t, exec i s = .next t ∧ Memory.readWord t.mem ((s.getReg .sp).toNat % 0x8000) = s.getReg .pc ∧
      (t.getReg .sp).toNat = ((s.getReg .sp).toNat + 0x7FFF) % 0x8000 ∧
      ((t.getReg .pc).toNat : Int) =
        ((if b = .sp then (t.getReg .sp).toNat else (s.getReg b).toNat : Nat) + v) % 65536 ∧
      SameRegs s t [.sp, .pc] ∧ SameRamBut s t ((s.getReg .sp).toNat % 0x8000) ∧ SameHidden s t ∧
      SameFlagsDelayEvents s t

/-- 43_bit_operations.md R90 to R92, the index in range and out of range. -/
def Obligations.BitOpsChangeOneBitOfReg2 : Prop :=
  (∀ (s : State) (a b : Reg) (l : BitVec 4) (v : Int), (s.opnd b v).toNat ≤ 15 →
    (∀ i ∈ [Instr.btsTeeny a b v, Instr.btsLong a b l v], EncodedAs i 5 a b v ∧ ∃ w, WritesAndJudges i s b w ∧
      ∀ j < 16, w.getLsbD j = if j = (s.opnd b v).toNat then true else (s.getReg b).getLsbD j) ∧
    (∀ i ∈ [Instr.btcTeeny a b v, Instr.btcLong a b l v], EncodedAs i 6 a b v ∧ ∃ w, WritesAndJudges i s b w ∧
      ∀ j < 16, w.getLsbD j = if j = (s.opnd b v).toNat then false else (s.getReg b).getLsbD j) ∧
    (∀ i ∈ [Instr.btfTeeny a b v, Instr.btfLong a b l v], EncodedAs i 7 a b v ∧ ∃ w, WritesAndJudges i s b w ∧
      ∀ j < 16, w.getLsbD j = if j = (s.opnd b v).toNat then !(s.getReg b).getLsbD j else (s.getReg b).getLsbD j)) ∧
  (∀ (s : State) (a b : Reg) (l : BitVec 4) (v : Int), 15 < (s.opnd b v).toNat →
    ∀ i ∈ [Instr.btsTeeny a b v, .btsLong a b l v, .btcTeeny a b v, .btcLong a b l v, .btfTeeny a b v,
      .btfLong a b l v], ChangesNothing i s)

/-- 44_arithmetic_logic.md R95, R96, R97. -/
def Obligations.AddSubMpyWriteWrappedResult : Prop :=
  ∀ (s : State) (a b : Reg) (l : BitVec 4) (v : Int),
    (∀ i ∈ [Instr.addTeeny a b v, Instr.addLong a b l v], EncodedAs i 9 a b v ∧ WritesAndJudges i s a (s.getReg a + s.opnd b v)) ∧
    (∀ i ∈ [Instr.subTeeny a b v, Instr.subLong a b l v], EncodedAs i 10 a b v ∧ WritesAndJudges i s a (s.getReg a - s.opnd b v)) ∧
    (∀ i ∈ [Instr.mpyTeeny a b v, Instr.mpyLong a b l v], EncodedAs i 11 a b v ∧ WritesAndJudges i s a (s.getReg a * s.opnd b v))

/-- 44_arithmetic_logic.md R100, R101, R102. -/
def Obligations.AndOrXorWriteBitwiseResult : Prop :=
  ∀ (s : State) (a b : Reg) (l : BitVec 4) (v : Int),
    (∀ i ∈ [Instr.andTeeny a b v, Instr.andLong a b l v], EncodedAs i 14 a b v ∧ ∃ w, WritesAndJudges i s a w ∧
      ∀ j < 16, w.getLsbD j = ((s.getReg a).getLsbD j && (s.opnd b v).getLsbD j)) ∧
    (∀ i ∈ [Instr.orTeeny a b v, Instr.orLong a b l v], EncodedAs i 15 a b v ∧ ∃ w, WritesAndJudges i s a w ∧
      ∀ j < 16, w.getLsbD j = ((s.getReg a).getLsbD j || (s.opnd b v).getLsbD j)) ∧
    (∀ i ∈ [Instr.xorTeeny a b v, Instr.xorLong a b l v], EncodedAs i 16 a b v ∧ ∃ w, WritesAndJudges i s a w ∧
      ∀ j < 16, w.getLsbD j = ((s.getReg a).getLsbD j ^^ (s.opnd b v).getLsbD j))

/-- 44_arithmetic_logic.md R98, R99, 40 R77; signedness and rounding are the spec's own decision D6 (log 9). -/
def Obligations.DivModBySignedTruncation : Prop :=
  ∀ (s : State) (a b : Reg) (l : BitVec 4) (v : Int), s.opnd b v ≠ 0#16 → ∃ q r : Int,
    (s.getReg a).toInt = q * (s.opnd b v).toInt + r ∧ r.natAbs < (s.opnd b v).toInt.natAbs ∧
    (0 ≤ (s.getReg a).toInt → 0 ≤ r) ∧ ((s.getReg a).toInt ≤ 0 → r ≤ 0) ∧
    (∀ i ∈ [Instr.divTeeny a b v, Instr.divLong a b l v], EncodedAs i 12 a b v ∧ WritesAndJudges i s a (BitVec.ofInt 16 q)) ∧
    (∀ i ∈ [Instr.modTeeny a b v, Instr.modLong a b l v], EncodedAs i 13 a b v ∧ WritesAndJudges i s a (BitVec.ofInt 16 r))

/-- 44_arithmetic_logic.md R98, R99: division by zero is skipped. -/
def Obligations.DivModByZeroSkipped : Prop :=
  ∀ (s : State) (a b : Reg) (l : BitVec 4) (v : Int), ((s.getReg b).toNat + v) % 65536 = 0 →
    ∀ i ∈ [Instr.divTeeny a b v, .divLong a b l v, .modTeeny a b v, .modLong a b l v], ChangesNothing i s

/-- 45_shift_rotate_negate_compare.md R107; the spec's own decision D7 (log 10). -/
def Obligations.ShfShiftsBySignedAmount : Prop :=
  ∀ (s : State) (a b : Reg) (l : BitVec 4) (v : Int), ∀ i ∈ [Instr.shfTeeny a b v, Instr.shfLong a b l v], EncodedAs i 17 a b v ∧
    WritesAndJudges i s a
      (if -15 ≤ (s.opnd b v).toInt ∧ (s.opnd b v).toInt < 0 then
        BitVec.ofNat 16 ((s.getReg a).toNat * 2 ^ (s.opnd b v).toInt.natAbs)
      else if 0 ≤ (s.opnd b v).toInt ∧ (s.opnd b v).toInt ≤ 15 then
        BitVec.ofNat 16 ((s.getReg a).toNat / 2 ^ (s.opnd b v).toInt.natAbs)
      else 0#16)

/-- 45_shift_rotate_negate_compare.md R108; decision D28 (log 21). -/
def Obligations.RotChangesNothing : Prop :=
  ∀ (s : State) (a b : Reg) (l : BitVec 4) (v : Int), ∀ i ∈ [Instr.rotTeeny a b v, Instr.rotLong a b l v], EncodedAs i 18 a b v ∧ ChangesNothing i s

/-- 45_shift_rotate_negate_compare.md R109. -/
def Obligations.NegNegatesReg1 : Prop :=
  ∀ (s : State) (a b : Reg) (l : BitVec 4) (v : Int), ∀ i ∈ [Instr.negTeeny a b v, Instr.negLong a b l v], EncodedAs i 19 a b v ∧ WritesAndJudges i s a (0#16 - s.getReg a)

/-- 45_shift_rotate_negate_compare.md R110. -/
def Obligations.CmpSetsFlagsOnly : Prop :=
  ∀ (s : State) (a b : Reg) (l : BitVec 4) (v : Int), ∀ i ∈ [Instr.cmpTeeny a b v, Instr.cmpLong a b l v], EncodedAs i 20 a b v ∧
    ∃ t, exec i s = .next t ∧ FlagsJudge t.flags (s.getReg a - s.opnd b v) ∧
      (t.flags.equals = true ↔ s.getReg a = s.opnd b v) ∧ OnlyRegsAndFlags s t []

/-- 46_control_flow_and_delay.md R113, R116; the bit positions are the spec's own decision D2 (log 15). -/
def Obligations.JmpTakenBySelectedFlags : Prop :=
  ∀ (s : State) (a b : Reg) (x : Bool) (c : BitVec 3) (v : Int),
    ∀ i ∈ [Instr.jmpTeeny a b c v, Instr.jmpLong a b x c v], i.fields.opcode.code = 21 ∧
    ∃ t, exec i s = .next t ∧
      (if c = 0#3 ∨ (c.getLsbD 2 = true ∧ s.flags.equals = true) ∨ (c.getLsbD 1 = true ∧ s.flags.less = true) ∨
          (c.getLsbD 0 = true ∧ s.flags.greater = true) then
        ((t.getReg .pc).toNat : Int) = ((s.getReg a).toNat + v) % 65536
      else t.getReg .pc = s.getReg .pc) ∧
      SameRegs s t [.pc] ∧ SameRam s t ∧ SameHidden s t ∧ SameFlagsDelayEvents s t

/-- 46_control_flow_and_delay.md R114; the order of reads is the spec's own decision D24 (log 13). -/
def Obligations.DjzDecrementsAndJumpsAtZero : Prop :=
  ∀ (s : State) (a b : Reg) (l : BitVec 4) (v : Int), ∀ i ∈ [Instr.djzTeeny a b v, Instr.djzLong a b l v], EncodedAs i 22 a b v ∧
    ∃ t, exec i s = .next t ∧ FlagsJudge t.flags (s.getReg a - 1#16) ∧
      (if s.getReg a = 1#16 then
        (a ≠ .pc → t.getReg a = 0#16) ∧
        ((t.getReg .pc).toNat : Int) = ((if b = a then 0 else (s.getReg b).toNat : Nat) + v) % 65536 ∧
        OnlyRegsAndFlags s t [a, .pc]
      else t.getReg a = s.getReg a - 1#16 ∧ OnlyRegsAndFlags s t [a])

/-- 46_control_flow_and_delay.md R115; the spec's own decision D8 (log 19). -/
def Obligations.DlySetsPendingDelay : Prop :=
  ∀ (s : State) (a b : Reg) (l : BitVec 4) (v : Int), ∀ i ∈ [Instr.dlyTeeny a b v, Instr.dlyLong a b l v], EncodedAs i 23 a b v ∧
    ∃ t, exec i s = .next t ∧
      (t.delay : Int) = (if ((s.getReg b).toNat + v) % 65536 = 0 then (s.delay : Int)
        else ((s.getReg b).toNat + v) % 65536 - 1) ∧
      SameRegs s t [] ∧ SameRam s t ∧ SameHidden s t ∧ t.flags = s.flags ∧ t.events = s.events

/-- 46_control_flow_and_delay.md R118; the report's wording is outside the hardware (decision D26, log 29). -/
def Obligations.ReservedOpcodesReportOnly : Prop :=
  ∀ (s : State) (a b : Reg) (l : BitVec 4) (v : Int), ∀ p ∈ [
      (Instr.reserved24Teeny a b v, (24 : BitVec 5)), (.reserved24Long a b l v, 24),
      (Instr.reserved25Teeny a b v, (25 : BitVec 5)), (.reserved25Long a b l v, 25),
      (Instr.reserved26Teeny a b v, (26 : BitVec 5)), (.reserved26Long a b l v, 26),
      (Instr.reserved27Teeny a b v, (27 : BitVec 5)), (.reserved27Long a b l v, 27),
      (Instr.reserved28Teeny a b v, (28 : BitVec 5)), (.reserved28Long a b l v, 28),
      (Instr.reserved29Teeny a b v, (29 : BitVec 5)), (.reserved29Long a b l v, 29),
      (Instr.reserved30Teeny a b v, (30 : BitVec 5)), (.reserved30Long a b l v, 30),
      (Instr.reserved31Teeny a b v, (31 : BitVec 5)), (.reserved31Long a b l v, 31)],
    EncodedAs p.1 p.2 a b v ∧
    ∃ t, exec p.1 s = .next t ∧ t.events = Event.report p.2 :: s.events ∧ t.flags = s.flags ∧ t.delay = s.delay ∧
      SameRegs s t [] ∧ SameRam s t ∧ SameHidden s t

/-- 20_memory.md R41, property 1; decisions D5 (log 16), D10 (log 12), D24 (log 13) are the spec's own. -/
def Obligations.LoadReturnsLastStore : Prop :=
  (∀ (s : State) (a b c d : Reg) (l m : BitVec 4) (v u : Int), Memory.wf s.mem = true →
    (s.regPlusImm a v).toNat < 0x8000 → s.opnd c u = s.regPlusImm a v →
    ∀ i ∈ [Instr.strTeeny a b v, Instr.strLong a b l v], ∀ j ∈ [Instr.lodTeeny d c u, Instr.lodLong d c m u],
      ∃ t t', exec i s = .next t ∧ exec j t = .next t' ∧ t'.getReg d = s.getReg b) ∧
  (∀ (s : State) (addr : Nat) (w : Word), Memory.wf s.mem = true → s.delay = 0 →
    s.fetch.2.ramStore s.fetch.1 = some (addr, w) →
    ∃ t, step s = .next t ∧ ∀ (n : Nat) (u : State) (d : Reg), ticksAvoiding addr n t = some u → u.delay = 0 →
      u.fetch.2.ramLoad u.fetch.1 = some (addr, d) →
      ∃ t', step u = .next t' ∧ t'.getReg d = if d = .rz then 0#16 else w) ∧
  (∀ (s u : State) (addr n : Nat), ticksAvoiding addr n s = some u →
    Memory.readWord u.mem addr = Memory.readWord s.mem addr)

/-- 20_memory.md R45: self-modifying code needs no fence; decisions D5 (log 16), D9 (log 11), D10 (log 12), D24 (log 13), D27 (log 21) are the spec's own. -/
def Obligations.StoreIsSeenByNextFetch : Prop :=
  ∀ (s : State) (a b : Reg) (l : BitVec 4) (v : Int), Memory.wf s.mem = true →
    ((s.regPlusImm a v).toNat < 0x8000 → ∀ i ∈ [Instr.strTeeny a b v, Instr.strLong a b l v],
      ∃ t, exec i s = .next t ∧ FetchSeesStore s t (s.regPlusImm a v).toNat (s.getReg b)) ∧
    (∀ i ∈ [Instr.pshTeeny a b v, Instr.pshLong a b l v],
      ∃ t, exec i s = .next t ∧ FetchSeesStore s t ((s.getReg .sp).toNat % 0x8000) (s.opnd b v)) ∧
    (∀ i ∈ [Instr.calTeeny a b v, Instr.calLong a b l v],
      ∃ t, exec i s = .next t ∧ FetchSeesStore s t ((s.getReg .sp).toNat % 0x8000) (s.getReg .pc))

/-- 42_stack_and_call.md R88. -/
def Obligations.StackSymmetry : Prop :=
  ∀ (ps : List (Reg × Int)) (ds : List Reg) (s : State), ds.length = ps.length → ps.length ≤ 0x8000 →
    Reg.sp ∉ ds → (s.getReg .sp).toNat < 0x8000 → Memory.wf s.mem = true →
    ∃ ws t us u, pushAll ps s = some (ws, t) ∧ popAll ds t = some (us, u) ∧ us = ws.reverse ∧
      u.getReg .sp = s.getReg .sp

/-- 42_stack_and_call.md R87, R89; decisions D10 (log 12), D24 (log 13), D27 (log 21). -/
def Obligations.CallThenReturnRestoresPc : Prop :=
  ∀ (s : State) (a b c : Reg) (l m : BitVec 4) (v u : Int), Memory.wf s.mem = true →
    ∀ i ∈ [Instr.calTeeny a b v, Instr.calLong a b l v],
    ∀ j ∈ [Instr.popTeeny .pc c u, Instr.popLong .pc c m u],
      ∃ t t', exec i s = .next t ∧ exec j t = .next t' ∧ t'.getReg .pc = s.getReg .pc ∧
        (t'.getReg .sp).toNat = (s.getReg .sp).toNat % 0x8000 ∧ SameRegs s t' [.pc, .sp]

/-- 47_assembler_encoder.md R139 to R141, R145, R146; the spec's own decisions D15 (log 20), D18, D19, D20 (log 31). -/
def Obligations.AsmInstructionFieldsAndForm : Prop :=
  (∀ p ∈ [("set", Opcode.set), ("lod", .lod), ("str", .str), ("psh", .psh), ("pop", .pop), ("bts", .bts), ("btc", .btc),
      ("btf", .btf), ("cal", .cal), ("add", .add), ("sub", .sub), ("mpy", .mpy), ("div", .div), ("mod", .mod),
      ("and", .and), ("or", .or), ("xor", .xor), ("shf", .shf), ("rot", .rot), ("neg", .neg), ("cmp", .cmp),
      ("djz", .djz), ("dly", .dly)],
      mnemonics.lookup (String.toList p.1) = some (.op p.2) ∧
      (∀ (regs : List Reg) (first : Bool) (v : Int),
        (lineInstr (.op p.2) regs first v).wellFormed = true ∧
        (lineInstr (.op p.2) regs first v).fields.opcode = p.2 ∧
        trunc16 (lineInstr (.op p.2) regs first v).fields.imm = trunc16 v ∧
        ((lineInstr (.op p.2) regs first v).fields.teeny = true ↔ -8 ≤ v ∧ v ≤ 7) ∧
        ((lineInstr (.op p.2) regs first v).fields.teeny = false →
          (lineInstr (.op p.2) regs first v).fields.low4 = 0#4)) ∧
      (∀ (first : Bool) (v : Int), HasRegs (lineInstr (.op p.2) [] first v) .rz .rz) ∧
      (∀ (r : Reg) (first : Bool) (v : Int),
        (p.2 = .psh ∨ p.2 = .cal ∨ p.2 = .dly → HasRegs (lineInstr (.op p.2) [r] first v) .rz r) ∧
        (p.2 = .str → HasRegs (lineInstr (.op p.2) [r] true v) .rz r ∧
          HasRegs (lineInstr (.op p.2) [r] false v) r .rz) ∧
        (p.2 ≠ .psh ∧ p.2 ≠ .cal ∧ p.2 ≠ .dly ∧ p.2 ≠ .str →
          HasRegs (lineInstr (.op p.2) [r] first v) r .rz)) ∧
      (∀ (r r' : Reg) (first : Bool) (v : Int), HasRegs (lineInstr (.op p.2) [r, r'] first v) r r')) ∧
    (∀ (cond : BitVec 3) (r : Reg) (regs : List Reg) (first : Bool) (v : Int), regs = [] ∨ regs = [r] →
      ∃ imm, lineInstr (.jump cond) regs first v = .jmpLong (regs.headD .rz) .rz false cond imm ∧
        (lineInstr (.jump cond) regs first v).wellFormed = true ∧ trunc16 imm = trunc16 v)

/-- 47_assembler_encoder.md R142, R143, R144; the spec's own decisions D2 (log 15), D15 (log 20), D18, D19 (log 31). -/
def Obligations.AsmPseudoInstructionWords : Prop :=
  mnemonics.lookup "ret".toList = some .ret ∧ mnemonics.lookup "inc".toList = some .inc ∧
  mnemonics.lookup "dec".toList = some .dec ∧
  (∀ p ∈ [("jmp", 0#3), ("jg", 1#3), ("jl", 2#3), ("jne", 3#3), ("je", 4#3), ("jge", 5#3), ("jle", 6#3)],
    mnemonics.lookup (String.toList p.1) = some (.jump p.2)) ∧
  (∀ (first : Bool) (v : Int),
    encode (lineInstr .ret [] first v) = [0x2400#16] ∧
    (∀ c : BitVec 3, encode (lineInstr (.jump c) [] first v) = [0xA920#16 + c.zeroExtend 16, trunc16 v]) ∧
    (∀ (c : BitVec 3) (r : Reg), lineInstr (.jump c) [r] first v = .jmpLong r .rz false c (imm16 (trunc16 v))) ∧
    (∀ r : Reg, lineInstr .inc [r] first v = .addTeeny r .rz 1 ∧ lineInstr .dec [r] first v = .subTeeny r .rz 1))

/-- 47_assembler_encoder.md R131. -/
def Obligations.AsmAddressCounterCountsWords : Prop :=
  ∀ (prevVars prevLabels : AddrTable) (lines : List Line),
    (runPass prevVars prevLabels lines).addr = (runPass prevVars prevLabels lines).out.length

/-- 47_assembler_encoder.md R136; that a first definition counts as a change is decision D16 (log 25). -/
def Obligations.AsmStablePassKeepsAddresses : Prop :=
  ∀ (prevVars prevLabels : AddrTable) (lines : List Line) (name : Name) (addr : Nat),
    (runPass prevVars prevLabels lines).unstable = false →
    ((runPass prevVars prevLabels lines).tables.labels.lookup name = some addr →
      prevLabels.lookup name = some addr) ∧
    ((runPass prevVars prevLabels lines).tables.vars.lookup name = some addr →
      prevVars.lookup name = some addr)

/-- 47_assembler_encoder.md R149, R126: a reference assembles to the label's resolved address; decisions D15 (log 20), D16 (log 25), D18, D19 (log 31) are the spec's own. -/
def Obligations.AsmForwardReferenceResolves : Prop :=
  ∀ (prevVars prevLabels : AddrTable) (before rest : List Line) (cond : BitVec 3) (r : Reg) (regs : List Reg)
      (name : Name) (neg first : Bool) (addr : Nat) (pass : PassState),
    pass = runPass prevVars prevLabels (before ++ .instr (.jump cond) regs (some name) neg first :: rest) →
    regs = [] ∨ regs = [r] → prevVars.lookup name = none → (∀ line ∈ before, line.valueName ≠ some name) →
    pass.unstable = false → pass.tables.labels.lookup name = some addr →
    ∃ w, pass.out[(runPass prevVars prevLabels before).out.length]? = some w ∧
      pass.out[(runPass prevVars prevLabels before).out.length + 1]? =
        some (trunc16 (if neg then -(addr : Int) else addr)) ∧
      opcodeField w = 21 ∧ teenyField w = false ∧ reg1Field w = (regs.headD .rz).index ∧
      reg2Field w = Reg.rz.index ∧ low4Field w = 0#1 ++ cond
end

