-- ==== Sys2Proof/Laws/Assembler.lean ====
section
/-! SUPPORT. The assembler: what one line can do to a pass, and a pass over joined sources. -/

namespace Sys2Proof.Machine

@[simp] theorem PassState.emit_tables (p : PassState) (ws : List Word) : (p.emit ws).tables = p.tables := rfl
@[simp] theorem PassState.emit_addr (p : PassState) (ws : List Word) : (p.emit ws).addr = p.addr + ws.length := rfl
@[simp] theorem PassState.emit_out (p : PassState) (ws : List Word) : (p.emit ws).out = p.out ++ ws := rfl
@[simp] theorem PassState.emit_unstable (p : PassState) (ws : List Word) : (p.emit ws).unstable = p.unstable := rfl

/-- `.var` either finds its name defined in this pass, or enters it at the current address. -/
theorem PassState.reserveVar_cases (p : PassState) (name : Name) :
    p.reserveVar name = p ∨ (p.tables.vars.lookup name = none ∧ p.reserveVar name =
      { p with
        unstable := p.unstable || p.tables.prevVars.lookup name != some p.addr
        tables := { p.tables with vars := (name, p.addr) :: p.tables.vars } }) := by
  unfold PassState.reserveVar
  split
  · exact .inl rfl
  · exact .inr ⟨‹_›, rfl⟩

/-- Whatever a line is, it appends Words, moves the address counter by their number, keeps the last pass's tables,
and never makes an unstable pass stable. -/
theorem passLine_effect (p : PassState) (l : Line) :
    ∃ ws, (passLine p l).out = p.out ++ ws ∧ (passLine p l).addr = p.addr + ws.length ∧
      (passLine p l).tables.prevVars = p.tables.prevVars ∧
      (passLine p l).tables.prevLabels = p.tables.prevLabels ∧
      (p.unstable = true → (passLine p l).unstable = true) := by
  cases l with
  | var name value neg =>
    rcases p.reserveVar_cases name with h | ⟨-, h⟩
    · exact ⟨_, by simp [passLine, h]; rfl, by simp [passLine, h], by simp [passLine, h], by simp [passLine, h],
        by simp [passLine, h]⟩
    · exact ⟨_, by simp [passLine, h]; rfl, by simp [passLine, h], by simp [passLine, h], by simp [passLine, h],
        fun hu => by simp [passLine, h, hu]⟩
  | blank => exact ⟨[], (List.append_nil _).symm, rfl, rfl, rfl, id⟩
  | label name => exact ⟨[], (List.append_nil _).symm, rfl, rfl, rfl, fun hu => by simp [passLine, hu]⟩
  | const name value neg => exact ⟨[], (List.append_nil _).symm, rfl, rfl, rfl, id⟩
  | raw values => exact ⟨_, rfl, rfl, rfl, rfl, id⟩
  | instr m regs value neg first => exact ⟨_, rfl, rfl, rfl, rfl, id⟩

/-- The lines after the first ones continue the pass those have left. -/
theorem runPass_append (prevVars prevLabels : AddrTable) (xs ys : List Line) :
    runPass prevVars prevLabels (xs ++ ys) = ys.foldl passLine (runPass prevVars prevLabels xs) :=
  List.foldl_append

end Sys2Proof.Machine
end

