-- ==== Sys2Proof/Laws/State.lean ====
section
/-! SUPPORT. One lemma per field per update of the state, and the reads of a register after a write. -/

namespace Sys2Proof.Machine

@[simp] theorem RegFile.get_set (f : RegFile) (r q : Reg) (v : Word) :
    (f.set r v).get q = if q = r then v else f.get q := by
  cases r <;> cases q <;> rfl

/-- Register files that agree on every register are equal. -/
theorem RegFile.ext_get (f g : RegFile) (h : ∀ r, f.get r = g.get r) : f = g := by
  have h0 := h .pc; have h1 := h .sp; have h2 := h .rz; have h3 := h .ra
  have h4 := h .rb; have h5 := h .rc; have h6 := h .rd; have h7 := h .re
  cases f; cases g
  simp only [RegFile.get] at h0 h1 h2 h3 h4 h5 h6 h7
  subst h0 h1 h2 h3 h4 h5 h6 h7
  rfl

/-- A state's register is its register file's. -/
theorem State.getReg_eq_get (s : State) (r : Reg) : s.getReg r = s.regs.get r := rfl

@[simp] theorem State.setReg_getReg (s : State) (r q : Reg) (v : Word) :
    (s.setReg r v).getReg q = if q = r then v else s.getReg q := RegFile.get_set s.regs r q v

@[simp] theorem State.push_getReg (s : State) (v : Word) (q : Reg) :
    (s.push v).getReg q = if q = .sp then mask15 (s.getReg .sp - 1#16) else s.getReg q :=
  RegFile.get_set s.regs .sp q _

@[simp] theorem State.popInto_getReg (s : State) (r q : Reg) :
    (s.popInto r).getReg q =
      if q = r then s.ramRead (mask15 (s.getReg .sp + 1#16))
      else if q = .sp then mask15 (s.getReg .sp + 1#16) else s.getReg q := by
  show ((s.regs.set .sp _).set r _).get q = _
  rw [RegFile.get_set, RegFile.get_set]; rfl

@[simp] theorem State.retire_getReg (s : State) (q : Reg) :
    s.retire.getReg q = if q = .rz then 0#16 else s.getReg q := RegFile.get_set s.regs .rz q _

@[simp] theorem State.maskPc_getReg (s : State) (q : Reg) :
    s.maskPc.getReg q = if q = .pc then mask15 (s.getReg .pc) else s.getReg q := RegFile.get_set s.regs .pc q _

@[simp] theorem State.advancePc_getReg (s : State) (q : Reg) :
    s.advancePc.getReg q = if q = .pc then s.getReg .pc + 1#16 else s.getReg q := RegFile.get_set s.regs .pc q _

@[simp] theorem State.retreatPc_getReg (s : State) (q : Reg) :
    s.retreatPc.getReg q = if q = .pc then s.getReg .pc - 1#16 else s.getReg q := RegFile.get_set s.regs .pc q _

@[simp] theorem State.setReg_regs (s : State) (r : Reg) (v : Word) : (s.setReg r v).regs = s.regs.set r v := rfl
@[simp] theorem State.setReg_flags (s : State) (r : Reg) (v : Word) : (s.setReg r v).flags = s.flags := rfl
@[simp] theorem State.setReg_mem (s : State) (r : Reg) (v : Word) : (s.setReg r v).mem = s.mem := rfl
@[simp] theorem State.setReg_delay (s : State) (r : Reg) (v : Word) : (s.setReg r v).delay = s.delay := rfl
@[simp] theorem State.setReg_cycles (s : State) (r : Reg) (v : Word) : (s.setReg r v).cycles = s.cycles := rfl
@[simp] theorem State.setReg_ir (s : State) (r : Reg) (v : Word) : (s.setReg r v).ir = s.ir := rfl
@[simp] theorem State.setReg_events (s : State) (r : Reg) (v : Word) : (s.setReg r v).events = s.events := rfl

@[simp] theorem State.setFlags_regs (s : State) (v : Word) : (s.setFlags v).regs = s.regs := rfl
@[simp] theorem State.setFlags_flags (s : State) (v : Word) : (s.setFlags v).flags = flagsOf v := rfl
@[simp] theorem State.setFlags_mem (s : State) (v : Word) : (s.setFlags v).mem = s.mem := rfl
@[simp] theorem State.setFlags_delay (s : State) (v : Word) : (s.setFlags v).delay = s.delay := rfl
@[simp] theorem State.setFlags_cycles (s : State) (v : Word) : (s.setFlags v).cycles = s.cycles := rfl
@[simp] theorem State.setFlags_ir (s : State) (v : Word) : (s.setFlags v).ir = s.ir := rfl
@[simp] theorem State.setFlags_events (s : State) (v : Word) : (s.setFlags v).events = s.events := rfl
@[simp] theorem State.setFlags_getReg (s : State) (v : Word) (q : Reg) : (s.setFlags v).getReg q = s.getReg q := rfl

@[simp] theorem State.ramWrite_regs (s : State) (a v : Word) : (s.ramWrite a v).regs = s.regs := rfl
@[simp] theorem State.ramWrite_flags (s : State) (a v : Word) : (s.ramWrite a v).flags = s.flags := rfl
@[simp] theorem State.ramWrite_mem (s : State) (a v : Word) : (s.ramWrite a v).mem = Memory.writeWord s.mem a.toNat v := rfl
@[simp] theorem State.ramWrite_delay (s : State) (a v : Word) : (s.ramWrite a v).delay = s.delay := rfl
@[simp] theorem State.ramWrite_cycles (s : State) (a v : Word) : (s.ramWrite a v).cycles = s.cycles := rfl
@[simp] theorem State.ramWrite_ir (s : State) (a v : Word) : (s.ramWrite a v).ir = s.ir := rfl
@[simp] theorem State.ramWrite_events (s : State) (a v : Word) : (s.ramWrite a v).events = s.events := rfl
@[simp] theorem State.ramWrite_getReg (s : State) (a v : Word) (q : Reg) : (s.ramWrite a v).getReg q = s.getReg q := rfl

@[simp] theorem State.addDelay_regs (s : State) (d : Nat) : (s.addDelay d).regs = s.regs := rfl
@[simp] theorem State.addDelay_flags (s : State) (d : Nat) : (s.addDelay d).flags = s.flags := rfl
@[simp] theorem State.addDelay_mem (s : State) (d : Nat) : (s.addDelay d).mem = s.mem := rfl
@[simp] theorem State.addDelay_delay (s : State) (d : Nat) : (s.addDelay d).delay = s.delay + d := rfl
@[simp] theorem State.addDelay_cycles (s : State) (d : Nat) : (s.addDelay d).cycles = s.cycles := rfl
@[simp] theorem State.addDelay_ir (s : State) (d : Nat) : (s.addDelay d).ir = s.ir := rfl
@[simp] theorem State.addDelay_events (s : State) (d : Nat) : (s.addDelay d).events = s.events := rfl
@[simp] theorem State.addDelay_getReg (s : State) (d : Nat) (q : Reg) : (s.addDelay d).getReg q = s.getReg q := rfl

@[simp] theorem State.setDelay_regs (s : State) (d : Nat) : (s.setDelay d).regs = s.regs := rfl
@[simp] theorem State.setDelay_flags (s : State) (d : Nat) : (s.setDelay d).flags = s.flags := rfl
@[simp] theorem State.setDelay_mem (s : State) (d : Nat) : (s.setDelay d).mem = s.mem := rfl
@[simp] theorem State.setDelay_delay (s : State) (d : Nat) : (s.setDelay d).delay = d := rfl
@[simp] theorem State.setDelay_cycles (s : State) (d : Nat) : (s.setDelay d).cycles = s.cycles := rfl
@[simp] theorem State.setDelay_ir (s : State) (d : Nat) : (s.setDelay d).ir = s.ir := rfl
@[simp] theorem State.setDelay_events (s : State) (d : Nat) : (s.setDelay d).events = s.events := rfl
@[simp] theorem State.setDelay_getReg (s : State) (d : Nat) (q : Reg) : (s.setDelay d).getReg q = s.getReg q := rfl

@[simp] theorem State.emit_regs (s : State) (e : Event) : (s.emit e).regs = s.regs := rfl
@[simp] theorem State.emit_flags (s : State) (e : Event) : (s.emit e).flags = s.flags := rfl
@[simp] theorem State.emit_mem (s : State) (e : Event) : (s.emit e).mem = s.mem := rfl
@[simp] theorem State.emit_delay (s : State) (e : Event) : (s.emit e).delay = s.delay := rfl
@[simp] theorem State.emit_cycles (s : State) (e : Event) : (s.emit e).cycles = s.cycles := rfl
@[simp] theorem State.emit_ir (s : State) (e : Event) : (s.emit e).ir = s.ir := rfl
@[simp] theorem State.emit_events (s : State) (e : Event) : (s.emit e).events = e :: s.events := rfl
@[simp] theorem State.emit_getReg (s : State) (e : Event) (q : Reg) : (s.emit e).getReg q = s.getReg q := rfl

@[simp] theorem State.report_regs (s : State) (c : BitVec 5) : (s.report c).regs = s.regs := rfl
@[simp] theorem State.report_flags (s : State) (c : BitVec 5) : (s.report c).flags = s.flags := rfl
@[simp] theorem State.report_mem (s : State) (c : BitVec 5) : (s.report c).mem = s.mem := rfl
@[simp] theorem State.report_delay (s : State) (c : BitVec 5) : (s.report c).delay = s.delay := rfl
@[simp] theorem State.report_cycles (s : State) (c : BitVec 5) : (s.report c).cycles = s.cycles := rfl
@[simp] theorem State.report_ir (s : State) (c : BitVec 5) : (s.report c).ir = s.ir := rfl
@[simp] theorem State.report_events (s : State) (c : BitVec 5) : (s.report c).events = .report c :: s.events := rfl
@[simp] theorem State.report_getReg (s : State) (c : BitVec 5) (q : Reg) : (s.report c).getReg q = s.getReg q := rfl

@[simp] theorem State.push_regs (s : State) (v : Word) : (s.push v).regs = s.regs.set .sp (mask15 (s.getReg .sp - 1#16)) := rfl
@[simp] theorem State.push_flags (s : State) (v : Word) : (s.push v).flags = s.flags := rfl
@[simp] theorem State.push_mem (s : State) (v : Word) : (s.push v).mem = Memory.writeWord s.mem (mask15 (s.getReg .sp)).toNat v := rfl
@[simp] theorem State.push_delay (s : State) (v : Word) : (s.push v).delay = s.delay := rfl
@[simp] theorem State.push_cycles (s : State) (v : Word) : (s.push v).cycles = s.cycles := rfl
@[simp] theorem State.push_ir (s : State) (v : Word) : (s.push v).ir = s.ir := rfl
@[simp] theorem State.push_events (s : State) (v : Word) : (s.push v).events = s.events := rfl

@[simp] theorem State.popInto_regs (s : State) (r : Reg) : (s.popInto r).regs = (s.regs.set .sp (mask15 (s.getReg .sp + 1#16))).set r (s.ramRead (mask15 (s.getReg .sp + 1#16))) := rfl
@[simp] theorem State.popInto_flags (s : State) (r : Reg) : (s.popInto r).flags = s.flags := rfl
@[simp] theorem State.popInto_mem (s : State) (r : Reg) : (s.popInto r).mem = s.mem := rfl
@[simp] theorem State.popInto_delay (s : State) (r : Reg) : (s.popInto r).delay = s.delay := rfl
@[simp] theorem State.popInto_cycles (s : State) (r : Reg) : (s.popInto r).cycles = s.cycles := rfl
@[simp] theorem State.popInto_ir (s : State) (r : Reg) : (s.popInto r).ir = s.ir := rfl
@[simp] theorem State.popInto_events (s : State) (r : Reg) : (s.popInto r).events = s.events := rfl

@[simp] theorem State.busyTick_regs (s : State) : (s.busyTick).regs = s.regs := rfl
@[simp] theorem State.busyTick_flags (s : State) : (s.busyTick).flags = s.flags := rfl
@[simp] theorem State.busyTick_mem (s : State) : (s.busyTick).mem = s.mem := rfl
@[simp] theorem State.busyTick_delay (s : State) : (s.busyTick).delay = s.delay - 1 := rfl
@[simp] theorem State.busyTick_cycles (s : State) : (s.busyTick).cycles = s.cycles := rfl
@[simp] theorem State.busyTick_ir (s : State) : (s.busyTick).ir = s.ir := rfl
@[simp] theorem State.busyTick_events (s : State) : (s.busyTick).events = s.events := rfl
@[simp] theorem State.busyTick_getReg (s : State) (q : Reg) : (s.busyTick).getReg q = s.getReg q := rfl

@[simp] theorem State.maskPc_regs (s : State) : (s.maskPc).regs = s.regs.set .pc (mask15 (s.getReg .pc)) := rfl
@[simp] theorem State.maskPc_flags (s : State) : (s.maskPc).flags = s.flags := rfl
@[simp] theorem State.maskPc_mem (s : State) : (s.maskPc).mem = s.mem := rfl
@[simp] theorem State.maskPc_delay (s : State) : (s.maskPc).delay = s.delay := rfl
@[simp] theorem State.maskPc_cycles (s : State) : (s.maskPc).cycles = s.cycles := rfl
@[simp] theorem State.maskPc_ir (s : State) : (s.maskPc).ir = s.ir := rfl
@[simp] theorem State.maskPc_events (s : State) : (s.maskPc).events = s.events := rfl

@[simp] theorem State.advancePc_regs (s : State) : (s.advancePc).regs = s.regs.set .pc (s.getReg .pc + 1#16) := rfl
@[simp] theorem State.advancePc_flags (s : State) : (s.advancePc).flags = s.flags := rfl
@[simp] theorem State.advancePc_mem (s : State) : (s.advancePc).mem = s.mem := rfl
@[simp] theorem State.advancePc_delay (s : State) : (s.advancePc).delay = s.delay := rfl
@[simp] theorem State.advancePc_cycles (s : State) : (s.advancePc).cycles = s.cycles := rfl
@[simp] theorem State.advancePc_ir (s : State) : (s.advancePc).ir = s.ir := rfl
@[simp] theorem State.advancePc_events (s : State) : (s.advancePc).events = s.events := rfl

@[simp] theorem State.retreatPc_regs (s : State) : (s.retreatPc).regs = s.regs.set .pc (s.getReg .pc - 1#16) := rfl
@[simp] theorem State.retreatPc_flags (s : State) : (s.retreatPc).flags = s.flags := rfl
@[simp] theorem State.retreatPc_mem (s : State) : (s.retreatPc).mem = s.mem := rfl
@[simp] theorem State.retreatPc_delay (s : State) : (s.retreatPc).delay = s.delay := rfl
@[simp] theorem State.retreatPc_cycles (s : State) : (s.retreatPc).cycles = s.cycles := rfl
@[simp] theorem State.retreatPc_ir (s : State) : (s.retreatPc).ir = s.ir := rfl
@[simp] theorem State.retreatPc_events (s : State) : (s.retreatPc).events = s.events := rfl

@[simp] theorem State.loadIr_regs (s : State) : (s.loadIr).regs = s.regs := rfl
@[simp] theorem State.loadIr_flags (s : State) : (s.loadIr).flags = s.flags := rfl
@[simp] theorem State.loadIr_mem (s : State) : (s.loadIr).mem = s.mem := rfl
@[simp] theorem State.loadIr_delay (s : State) : (s.loadIr).delay = s.delay := rfl
@[simp] theorem State.loadIr_cycles (s : State) : (s.loadIr).cycles = s.cycles := rfl
@[simp] theorem State.loadIr_ir (s : State) : (s.loadIr).ir = s.ramRead (s.getReg .pc) := rfl
@[simp] theorem State.loadIr_events (s : State) : (s.loadIr).events = s.events := rfl
@[simp] theorem State.loadIr_getReg (s : State) (q : Reg) : (s.loadIr).getReg q = s.getReg q := rfl

@[simp] theorem State.retire_regs (s : State) : (s.retire).regs = s.regs.set .rz 0#16 := rfl
@[simp] theorem State.retire_flags (s : State) : (s.retire).flags = s.flags := rfl
@[simp] theorem State.retire_mem (s : State) : (s.retire).mem = s.mem := rfl
@[simp] theorem State.retire_delay (s : State) : (s.retire).delay = s.delay := rfl
@[simp] theorem State.retire_cycles (s : State) : (s.retire).cycles = s.cycles + 1 := rfl
@[simp] theorem State.retire_ir (s : State) : (s.retire).ir = s.ir := rfl
@[simp] theorem State.retire_events (s : State) : (s.retire).events = s.events := rfl

end Sys2Proof.Machine
end

