-- ==== Sys2Proof/Laws/Memory.lean ====
section
/-! SUPPORT. RAM: read after write, a write leaves every other place alone, every operation keeps the canonical
form, and memories in canonical form with the same contents are equal. -/

namespace Sys2Proof.Machine

/-! ## Bytes -/

@[simp] theorem Memory.readByte_nil (k : Nat) : Memory.readByte [] k = 0#8 := rfl

theorem Memory.readByte_cons (a : Nat) (b : Byte) (m : Memory) (k : Nat) :
    Memory.readByte ((a, b) :: m) k = if a = k then b else Memory.readByte m k := rfl

theorem Memory.wfFrom_cons (lo a : Nat) (b : Byte) (m : Memory) :
    Memory.wfFrom lo ((a, b) :: m) = true ↔
      lo ≤ a ∧ a < 2 * Config.ramSize ∧ b ≠ 0#8 ∧ Memory.wfFrom (a + 1) m = true := by
  simp [Memory.wfFrom, and_assoc]

theorem Memory.wfFrom_mono {lo lo' : Nat} (h : lo' ≤ lo) {m : Memory} (hm : Memory.wfFrom lo m = true) :
    Memory.wfFrom lo' m = true := by
  cases m with
  | nil => rfl
  | cons c m =>
    obtain ⟨a, b⟩ := c
    rw [Memory.wfFrom_cons] at hm ⊢
    exact ⟨Nat.le_trans h hm.1, hm.2⟩

/-- A byte below the first listed address reads 0. -/
theorem Memory.readByte_below {lo k : Nat} (hk : k < lo) {m : Memory} (hm : Memory.wfFrom lo m = true) :
    Memory.readByte m k = 0#8 := by
  induction m generalizing lo with
  | nil => rfl
  | cons c m ih =>
    obtain ⟨a, b⟩ := c
    rw [Memory.wfFrom_cons] at hm
    rw [Memory.readByte_cons, if_neg (by omega)]
    exact ih (by omega) hm.2.2.2

/-- Past the end of RAM nothing is listed. -/
theorem Memory.readByte_past {lo k : Nat} (hk : 2 * Config.ramSize ≤ k) {m : Memory}
    (hm : Memory.wfFrom lo m = true) : Memory.readByte m k = 0#8 := by
  induction m generalizing lo with
  | nil => rfl
  | cons c m ih =>
    obtain ⟨a, b⟩ := c
    rw [Memory.wfFrom_cons] at hm
    rw [Memory.readByte_cons, if_neg (by omega)]
    exact ih hm.2.2.2

/-- A byte write leaves every other byte alone, in any memory. -/
theorem Memory.readByte_writeByte_ne (m : Memory) {k k' : Nat} (v : Byte) (h : k' ≠ k) :
    Memory.readByte (Memory.writeByte m k v) k' = Memory.readByte m k' := by
  induction m with
  | nil =>
    unfold Memory.writeByte
    split
    · rfl
    · rw [Memory.readByte_cons, if_neg (Ne.symm h)]
  | cons c m ih =>
    obtain ⟨a, b⟩ := c
    unfold Memory.writeByte
    split
    · split
      · rfl
      · rw [Memory.readByte_cons, if_neg (Ne.symm h)]
    · split
      · subst_vars
        split <;> simp [Memory.readByte_cons, Ne.symm h]
      · simp [Memory.readByte_cons, ih]

/-- A byte read after its write gives the value written. -/
theorem Memory.readByte_writeByte_same {lo : Nat} {m : Memory} (hm : Memory.wfFrom lo m = true) (k : Nat)
    (v : Byte) : Memory.readByte (Memory.writeByte m k v) k = v := by
  induction m generalizing lo with
  | nil =>
    unfold Memory.writeByte
    split
    · subst_vars; rfl
    · simp [Memory.readByte_cons]
  | cons c m ih =>
    obtain ⟨a, b⟩ := c
    rw [Memory.wfFrom_cons] at hm
    unfold Memory.writeByte
    split
    · split
      · subst_vars
        rw [Memory.readByte_cons, if_neg (by omega)]
        exact Memory.readByte_below (by omega) hm.2.2.2
      · simp [Memory.readByte_cons]
    · split
      · subst_vars
        split
        · subst_vars; exact Memory.readByte_below (Nat.lt_succ_self _) hm.2.2.2
        · simp [Memory.readByte_cons]
      · rw [Memory.readByte_cons, if_neg (by omega)]
        exact ih hm.2.2.2

/-- A byte write keeps the canonical form. -/
theorem Memory.wfFrom_writeByte {lo : Nat} {m : Memory} (hm : Memory.wfFrom lo m = true) {k : Nat} (v : Byte)
    (hlo : lo ≤ k) (hk : k < 2 * Config.ramSize) : Memory.wfFrom lo (Memory.writeByte m k v) = true := by
  induction m generalizing lo with
  | nil =>
    unfold Memory.writeByte
    split
    · rfl
    · rw [Memory.wfFrom_cons]; exact ⟨hlo, hk, ‹_›, rfl⟩
  | cons c m ih =>
    obtain ⟨a, b⟩ := c
    rw [Memory.wfFrom_cons] at hm
    unfold Memory.writeByte
    split
    · split
      · rw [Memory.wfFrom_cons]; exact hm
      · rw [Memory.wfFrom_cons, Memory.wfFrom_cons]
        exact ⟨hlo, hk, ‹_›, by omega, hm.2⟩
    · split
      · subst_vars
        split
        · exact Memory.wfFrom_mono (by omega) hm.2.2.2
        · rw [Memory.wfFrom_cons]; exact ⟨hm.1, hm.2.1, ‹_›, hm.2.2.2⟩
      · rw [Memory.wfFrom_cons]
        exact ⟨hm.1, hm.2.1, hm.2.2.1, ih hm.2.2.2 (by omega)⟩

/-- The canonical form is canonical: equal contents are equal lists. -/
theorem Memory.eq_of_readByte {lo : Nat} {m n : Memory} (hm : Memory.wfFrom lo m = true)
    (hn : Memory.wfFrom lo n = true) (h : ∀ k, Memory.readByte m k = Memory.readByte n k) : m = n := by
  induction m generalizing lo n with
  | nil =>
    cases n with
    | nil => rfl
    | cons c n =>
      obtain ⟨a, b⟩ := c
      rw [Memory.wfFrom_cons] at hn
      have := h a
      simp [Memory.readByte_cons] at this
      exact absurd this.symm hn.2.2.1
  | cons c m ih =>
    obtain ⟨a, b⟩ := c
    rw [Memory.wfFrom_cons] at hm
    cases n with
    | nil =>
      have := h a
      simp [Memory.readByte_cons] at this
      exact absurd this hm.2.2.1
    | cons d n =>
      obtain ⟨a', b'⟩ := d
      rw [Memory.wfFrom_cons] at hn
      have haa : a = a' := by
        rcases Nat.lt_trichotomy a a' with hlt | heq | hgt
        · have := h a
          rw [Memory.readByte_cons, if_pos rfl, Memory.readByte_cons, if_neg (by omega),
            Memory.readByte_below (by omega) hn.2.2.2] at this
          exact absurd this hm.2.2.1
        · exact heq
        · have := h a'
          rw [Memory.readByte_cons, if_neg (by omega), Memory.readByte_below (by omega) hm.2.2.2,
            Memory.readByte_cons, if_pos rfl] at this
          exact absurd this.symm hn.2.2.1
      subst haa
      have hbb : b = b' := by simpa [Memory.readByte_cons] using h a
      subst hbb
      congr 1
      refine ih hm.2.2.2 hn.2.2.2 fun k => ?_
      by_cases hk : a = k
      · subst hk
        rw [Memory.readByte_below (Nat.lt_succ_self _) hm.2.2.2,
          Memory.readByte_below (Nat.lt_succ_self _) hn.2.2.2]
      · simpa [Memory.readByte_cons, hk] using h k

/-! ## Words -/

theorem Word.toNat_low (v : Word) : (Word.low v).toNat = v.toNat % 256 := by
  simp [Word.low, BitVec.extractLsb'_toNat]

theorem Word.toNat_high (v : Word) : (Word.high v).toNat = v.toNat / 256 := by
  have := v.isLt
  simp only [Word.high, BitVec.extractLsb'_toNat, Nat.shiftRight_eq_div_pow]
  omega

theorem Word.toNat_ofBytes (lo hi : Byte) : (Word.ofBytes lo hi).toNat = hi.toNat * 256 + lo.toNat := by
  have h := BitVec.toNat_append hi lo
  have h2 := Nat.shiftLeft_add_eq_or_of_lt lo.isLt hi.toNat
  rw [← h2, Nat.shiftLeft_eq] at h
  exact h

@[simp] theorem Word.ofBytes_low_high (v : Word) : Word.ofBytes (Word.low v) (Word.high v) = v := by
  apply BitVec.eq_of_toNat_eq
  rw [Word.toNat_ofBytes, Word.toNat_low, Word.toNat_high]
  omega

@[simp] theorem Word.low_ofBytes (lo hi : Byte) : Word.low (Word.ofBytes lo hi) = lo := by
  apply BitVec.eq_of_toNat_eq
  rw [Word.toNat_low, Word.toNat_ofBytes]
  have := lo.isLt
  omega

@[simp] theorem Word.high_ofBytes (lo hi : Byte) : Word.high (Word.ofBytes lo hi) = hi := by
  apply BitVec.eq_of_toNat_eq
  rw [Word.toNat_high, Word.toNat_ofBytes]
  have := lo.isLt
  omega

/-- Where nothing is listed a Word reads 0 (10_state.md R17). -/
@[simp] theorem Memory.readWord_nil (a : Nat) : Memory.readWord [] a = 0#16 := by
  show Word.ofBytes 0#8 0#8 = 0#16
  decide

/-- A Word read after its write gives the Word written. -/
theorem Memory.readWord_writeWord_same {m : Memory} (hm : Memory.wf m = true) {a : Nat}
    (ha : a < Config.ramSize) (v : Word) : Memory.readWord (Memory.writeWord m a v) a = v := by
  have h1 : Memory.wfFrom 0 (Memory.writeByte m (2 * a) (Word.low v)) = true :=
    Memory.wfFrom_writeByte hm _ (Nat.zero_le _) (by omega)
  unfold Memory.readWord Memory.writeWord
  rw [Memory.readByte_writeByte_ne _ _ (by omega), Memory.readByte_writeByte_same hm,
    Memory.readByte_writeByte_same h1, Word.ofBytes_low_high]

/-- A Word write leaves every byte of the other Words alone, in any memory. -/
theorem Memory.readByte_writeWord_ne (m : Memory) (a : Nat) (v : Word) {k : Nat} (h0 : k ≠ 2 * a)
    (h1 : k ≠ 2 * a + 1) : Memory.readByte (Memory.writeWord m a v) k = Memory.readByte m k := by
  unfold Memory.writeWord
  rw [Memory.readByte_writeByte_ne _ _ h1, Memory.readByte_writeByte_ne _ _ h0]

/-- A Word write leaves every other Word alone, in any memory. -/
theorem Memory.readWord_writeWord_ne (m : Memory) {a a' : Nat} (v : Word) (h : a' ≠ a) :
    Memory.readWord (Memory.writeWord m a v) a' = Memory.readWord m a' := by
  unfold Memory.readWord
  rw [Memory.readByte_writeWord_ne _ _ _ (by omega) (by omega),
    Memory.readByte_writeWord_ne _ _ _ (by omega) (by omega)]

/-- A Word write inside RAM keeps the canonical form. -/
theorem Memory.wf_writeWord {m : Memory} (hm : Memory.wf m = true) {a : Nat} (ha : a < Config.ramSize)
    (v : Word) : Memory.wf (Memory.writeWord m a v) = true :=
  Memory.wfFrom_writeByte (Memory.wfFrom_writeByte hm _ (Nat.zero_le _) (by omega)) _ (Nat.zero_le _) (by omega)

/-- Equal bytes give equal Words. -/
theorem Memory.readWord_congr {m n : Memory} (h : ∀ k, Memory.readByte m k = Memory.readByte n k) (a : Nat) :
    Memory.readWord m a = Memory.readWord n a := by
  simp [Memory.readWord, h]

/-! ## Storing a sequence of Words -/

/-- Storing a sequence inside RAM keeps the canonical form. -/
theorem Memory.wf_storeWords {m : Memory} (hm : Memory.wf m = true) {a : Nat} {ws : List Word}
    (h : a + ws.length ≤ Config.ramSize) : Memory.wf (Memory.storeWords m a ws) = true := by
  induction ws generalizing m a with
  | nil => exact hm
  | cons w ws ih =>
    simp only [List.length_cons] at h
    exact ih (Memory.wf_writeWord hm (by omega) w) (by omega)

/-- Storing a sequence leaves the Words below and past it alone. -/
theorem Memory.readWord_storeWords_outside {m : Memory} {a k : Nat} {ws : List Word}
    (h : k < a ∨ a + ws.length ≤ k) :
    Memory.readWord (Memory.storeWords m a ws) k = Memory.readWord m k := by
  induction ws generalizing m a with
  | nil => rfl
  | cons w ws ih =>
    simp only [List.length_cons] at h
    rw [Memory.storeWords, ih (by omega), Memory.readWord_writeWord_ne _ _ (by omega)]

end Sys2Proof.Machine
end

