-- ==== Sys2Proof/Laws/Words.lean ====
section
/-! SUPPORT. The fields of an instruction word, and the inverses of the maps between names and codes. -/

namespace Sys2Proof

@[simp] theorem Reg.ofIndex_index (r : Reg) : Reg.ofIndex r.index = r := by cases r <;> rfl

@[simp] theorem Reg.index_ofIndex (n : BitVec 3) : (Reg.ofIndex n).index = n := by
  revert n; decide

@[simp] theorem Opcode.ofCode_code (op : Opcode) : Opcode.ofCode op.code = op := by cases op <;> rfl

@[simp] theorem Opcode.code_ofCode (c : BitVec 5) : (Opcode.ofCode c).code = c := by
  revert c; decide

theorem sext4_eq_toInt (n : BitVec 4) : sext4 n = n.toInt := by
  revert n; decide

@[simp] theorem ofInt_sext4 (n : BitVec 4) : BitVec.ofInt 4 (sext4 n) = n := by
  revert n; decide

theorem ofInt3_sext4 (n : BitVec 4) : BitVec.ofInt 3 (sext4 n) = n.extractLsb' 0 3 := by
  revert n; decide

theorem fitsTeeny_iff (v : Int) : fitsTeeny v = true ↔ -8 ≤ v ∧ v ≤ 7 := by simp [fitsTeeny]

theorem fitsLong_iff (v : Int) : fitsLong v = true ↔ -32768 ≤ v ∧ v ≤ 32767 := by simp [fitsLong]

theorem fitsTeeny_sext4 (n : BitVec 4) : fitsTeeny (sext4 n) = true := by
  revert n; decide

theorem sext4_ofInt {v : Int} (h : fitsTeeny v = true) : sext4 (BitVec.ofInt 4 v) = v := by
  rw [fitsTeeny_iff] at h
  rw [sext4_eq_toInt, BitVec.toInt_ofInt]
  obtain ⟨h1, h2⟩ := h
  interval_cases v <;> decide

@[simp] theorem trunc16_imm16 (w : Word) : trunc16 (imm16 w) = w := BitVec.ofInt_toInt

theorem fitsLong_imm16 (w : Word) : fitsLong (imm16 w) = true := by
  rw [fitsLong_iff]
  have h1 := BitVec.le_toInt w
  have h2 := BitVec.toInt_lt (x := w)
  simp only [imm16]
  omega

theorem imm16_trunc16 {v : Int} (h : fitsLong v = true) : imm16 (trunc16 v) = v := by
  rw [fitsLong_iff] at h
  simp only [imm16, trunc16, BitVec.toInt_ofInt]
  rw [Int.bmod_def]
  split <;> omega

/-- `trunc16` is the remainder modulo 65536 (00_scope.md R3). -/
theorem toNat_trunc16 (n : Int) : ((trunc16 n).toNat : Int) = n % 65536 := by
  simp only [trunc16, BitVec.toNat_ofInt]
  omega

/-! ## The fields of the instruction word -/

theorem wordOfFields_eq (f : Fields) :
    wordOfFields f = f.opcode.code ++ BitVec.ofBool f.teeny ++ f.reg1.index ++ f.reg2.index ++ f.low4 := rfl

@[simp] theorem low4Field_wordOfFields (f : Fields) : low4Field (wordOfFields f) = f.low4 := by
  obtain ⟨op, t, a, b, l, v⟩ := f
  simp only [low4Field, wordOfFields]
  generalize op.code = c, a.index = x, b.index = y, BitVec.ofBool t = z
  apply BitVec.eq_of_getLsbD_eq
  intro i hi
  simp only [BitVec.getLsbD_extractLsb', BitVec.getLsbD_append, hi]
  interval_cases i <;> simp

@[simp] theorem reg2Field_wordOfFields (f : Fields) : reg2Field (wordOfFields f) = f.reg2.index := by
  obtain ⟨op, t, a, b, l, v⟩ := f
  simp only [reg2Field, wordOfFields]
  generalize op.code = c, a.index = x, b.index = y, BitVec.ofBool t = z
  apply BitVec.eq_of_getLsbD_eq
  intro i hi
  simp only [BitVec.getLsbD_extractLsb', BitVec.getLsbD_append, hi]
  interval_cases i <;> simp

@[simp] theorem reg1Field_wordOfFields (f : Fields) : reg1Field (wordOfFields f) = f.reg1.index := by
  obtain ⟨op, t, a, b, l, v⟩ := f
  simp only [reg1Field, wordOfFields]
  generalize op.code = c, a.index = x, b.index = y, BitVec.ofBool t = z
  apply BitVec.eq_of_getLsbD_eq
  intro i hi
  simp only [BitVec.getLsbD_extractLsb', BitVec.getLsbD_append, hi]
  interval_cases i <;> simp

@[simp] theorem opcodeField_wordOfFields (f : Fields) : opcodeField (wordOfFields f) = f.opcode.code := by
  obtain ⟨op, t, a, b, l, v⟩ := f
  simp only [opcodeField, wordOfFields]
  generalize op.code = c, a.index = x, b.index = y, BitVec.ofBool t = z
  apply BitVec.eq_of_getLsbD_eq
  intro i hi
  simp only [BitVec.getLsbD_extractLsb', BitVec.getLsbD_append, hi]
  interval_cases i <;> simp

@[simp] theorem teenyField_wordOfFields (f : Fields) : teenyField (wordOfFields f) = f.teeny := by
  obtain ⟨op, t, a, b, l, v⟩ := f
  simp only [teenyField, wordOfFields]
  generalize op.code = c, a.index = x, b.index = y
  simp only [BitVec.getLsbD_append]
  cases t <;> simp

/-- A Word is put together from its own fields. -/
theorem wordOfFields_fields (w : Word) (op : Opcode) (a b : Reg) (v : Int) (t : Bool)
    (hop : op.code = opcodeField w) (ht : t = teenyField w) (ha : a.index = reg1Field w)
    (hb : b.index = reg2Field w) : wordOfFields ⟨op, t, a, b, low4Field w, v⟩ = w := by
  simp only [wordOfFields, hop, ha, hb, ht, opcodeField, teenyField, reg1Field, reg2Field, low4Field]
  apply BitVec.eq_of_getLsbD_eq
  intro i hi
  simp only [BitVec.getLsbD_append, BitVec.getLsbD_extractLsb']
  interval_cases i <;> simp

/-! ## The instruction of a form's fields -/

/-- The TEENY instruction of an opcode has the fields it was made of (30_encoding.md R51, R52). -/
theorem Instr.ofTeeny_fields (op : Opcode) (a b : Reg) (n : BitVec 4) :
    (Instr.ofTeeny op a b n).fields = ⟨op, true, a, b, n, sext4 n⟩ := by
  cases op <;> simp [Instr.ofTeeny, Instr.fields]

/-- The LONG instruction of an opcode has the fields it was made of (30_encoding.md R51, R53). -/
theorem Instr.ofLong_fields (op : Opcode) (a b : Reg) (n : BitVec 4) (w : Word) :
    (Instr.ofLong op a b n w).fields = ⟨op, false, a, b, n, imm16 w⟩ := by
  cases op <;> simp [Instr.ofLong, Instr.fields]
  revert n; decide

theorem Instr.ofTeeny_wellFormed (op : Opcode) (a b : Reg) (n : BitVec 4) :
    (Instr.ofTeeny op a b n).wellFormed = true := by
  have h1 : (Instr.ofTeeny op a b n).immFits = true := by simp [Instr.immFits, ofTeeny_fields, fitsTeeny_sext4]
  have h2 : (Instr.ofTeeny op a b n).condAgrees = true := by
    cases op <;> simp [Instr.ofTeeny, Instr.condAgrees, ofInt3_sext4]
  simp [Instr.wellFormed, h1, h2]

theorem Instr.ofLong_wellFormed (op : Opcode) (a b : Reg) (n : BitVec 4) (w : Word) :
    (Instr.ofLong op a b n w).wellFormed = true := by
  have h1 : (Instr.ofLong op a b n w).immFits = true := by simp [Instr.immFits, ofLong_fields, fitsLong_imm16]
  have h2 : (Instr.ofLong op a b n w).condAgrees = true := by cases op <;> rfl
  simp [Instr.wellFormed, h1, h2]

end Sys2Proof
end

