-- ==== Sys2Proof/Laws/Ops.lean ====
section
/-! SUPPORT. For each shared operation, once, everything it can answer. -/

namespace Sys2Proof.Machine

/-! ## Addresses -/

/-- `mask15` is the remainder modulo 0x8000 (10_state.md R12). -/
theorem toNat_mask15 (a : Word) : (mask15 a).toNat = a.toNat % 0x8000 := by
  have h : (32767 : Nat) = 2 ^ 15 - 1 := rfl
  simp only [mask15, Config.ramTop, BitVec.toNat_and, BitVec.toNat_ofNat]
  rw [show (0x7FFF % 2 ^ 16 : Nat) = 2 ^ 15 - 1 from rfl, Nat.and_two_pow_sub_one_eq_mod]

theorem mask15_lt (a : Word) : (mask15 a).toNat < Config.ramSize := by
  rw [toNat_mask15]; exact Nat.mod_lt _ (by decide)

@[simp] theorem mask15_mask15 (a : Word) : mask15 (mask15 a) = mask15 a := by
  apply BitVec.eq_of_toNat_eq
  simp [toNat_mask15]

theorem mask15_of_lt {a : Word} (h : a.toNat < 0x8000) : mask15 a = a := by
  apply BitVec.eq_of_toNat_eq
  rw [toNat_mask15, Nat.mod_eq_of_lt h]

theorem inRam_iff (a : Word) : inRam a = true ↔ a.toNat < Config.ramSize := by
  simp only [inRam, decide_eq_true_eq, BitVec.le_def]
  show a.toNat ≤ 0x7FFF ↔ a.toNat < 0x8000
  omega

/-- A register plus an immediate, modulo 65536 (40_fetch_decode_execute_cycle.md R72). -/
theorem State.toNat_regPlusImm (s : State) (r : Reg) (v : Int) :
    ((s.regPlusImm r v).toNat : Int) = ((s.getReg r).toNat + v) % 65536 := toNat_trunc16 _

/-! ## Memory accesses (20_memory.md R35) -/

theorem State.memRead_ram (s : State) {a : Word} (h : inRam a = true) : s.memRead a = ⟨s.ramRead a, 0, s⟩ := by
  simp [State.memRead, h]

theorem State.memRead_bus (s : State) {a : Word} (h : inRam a = false) : s.memRead a = s.busRead a := by
  simp [State.memRead, h]

theorem State.memWrite_ram (s : State) {a : Word} (h : inRam a = true) (v : Word) :
    s.memWrite a v = ⟨0, s.ramWrite a v⟩ := by
  simp [State.memWrite, h]

theorem State.memWrite_bus (s : State) {a : Word} (h : inRam a = false) (v : Word) :
    s.memWrite a v = s.busWrite a v := by
  simp [State.memWrite, h]

/-- A memory read changes nothing but the output events. -/
theorem State.memRead_state (s : State) (a : Word) :
    (s.memRead a).state = { s with events := (s.memRead a).state.events } := by
  unfold State.memRead; split <;> rfl

/-- A memory write changes nothing but RAM and the output events. -/
theorem State.memWrite_state (s : State) (a v : Word) :
    (s.memWrite a v).state =
      { s with mem := (s.memWrite a v).state.mem, events := (s.memWrite a v).state.events } := by
  unfold State.memWrite; split <;> rfl

/-- A push keeps the canonical form of RAM. -/
theorem State.wf_push {s : State} (h : Memory.wf s.mem = true) (v : Word) : Memory.wf (s.push v).mem = true :=
  Memory.wf_writeWord h (mask15_lt _) v

/-- A memory write keeps the canonical form of RAM. -/
theorem State.wf_memWrite {s : State} (h : Memory.wf s.mem = true) (a v : Word) :
    Memory.wf (s.memWrite a v).state.mem = true := by
  unfold State.memWrite
  split
  · exact Memory.wf_writeWord h ((inRam_iff a).1 ‹_›) v
  · exact h

/-- A pop keeps the canonical form of RAM: it writes none. -/
theorem State.wf_popInto {s : State} (h : Memory.wf s.mem = true) (r : Reg) :
    Memory.wf (s.popInto r).mem = true := h

/-- Storing an image that fits keeps the canonical form of RAM. -/
theorem Memory.wf_ofImage {ws : List Word} (h : ws.length ≤ Config.ramSize) :
    Memory.wf (Memory.ofImage ws) = true :=
  Memory.wf_storeWords rfl (by omega)

/-- Placing two Words at pc keeps the canonical form of RAM. -/
theorem State.wf_placeWords {s : State} (h : Memory.wf s.mem = true) (w1 w2 : Word) :
    Memory.wf (s.placeWords w1 w2).mem = true :=
  Memory.wf_writeWord (Memory.wf_writeWord h (mask15_lt _) w1) (mask15_lt _) w2

/-- RAM after reset is in canonical form (10_state.md R26). -/
theorem State.wf_reset : Memory.wf State.reset.mem = true := rfl

/-! ## Flags -/

@[simp] theorem flagsOf_equals (v : Word) : (flagsOf v).equals = (v == 0#16) := rfl
@[simp] theorem flagsOf_less (v : Word) : (flagsOf v).less = v.msb := rfl
@[simp] theorem flagsOf_greater (v : Word) : (flagsOf v).greater = decide (0 < v.toInt) := rfl

/-- A bit index is in range exactly when the operand is 0x0000..0x000F (43_bit_operations.md R90, R93). -/
theorem bitIndex_eq (w : Word) : bitIndex w = if w.toNat ≤ 15 then some w.toNat else none := by
  have hw := w.isLt
  unfold bitIndex
  have ht : w.toInt = if 2 * w.toNat < 65536 then (w.toNat : Int) else w.toNat - 65536 := by
    rw [BitVec.toInt_eq_toNat_cond]; rfl
  split <;> split at ht <;> split <;> simp_all <;> omega

/-! ## Shared meanings -/

theorem opLod_ram (a b : Reg) (v : Int) (s : State) (h : inRam (s.opnd b v) = true) :
    opLod a b v s = .next ((s.setReg a (s.ramRead (s.opnd b v))).addDelay Config.busDelay) := by
  simp [opLod, State.memRead_ram _ h]

theorem opLod_bus (a b : Reg) (v : Int) (s : State) (h : inRam (s.opnd b v) = false) :
    opLod a b v s = .next
      (((s.busRead (s.opnd b v)).state.setReg a (s.busRead (s.opnd b v)).data).addDelay
        ((s.busRead (s.opnd b v)).delay + Config.busDelay)) := by
  simp [opLod, State.memRead_bus _ h]

theorem opStr_ram (a b : Reg) (v : Int) (s : State) (h : inRam (s.regPlusImm a v) = true) :
    opStr a b v s = .next ((s.ramWrite (s.regPlusImm a v) (s.getReg b)).addDelay Config.busDelay) := by
  simp [opStr, State.memWrite_ram _ h]

theorem opStr_bus (a b : Reg) (v : Int) (s : State) (h : inRam (s.regPlusImm a v) = false) :
    opStr a b v s = .next ((s.busWrite (s.regPlusImm a v) (s.getReg b)).state.addDelay
      ((s.busWrite (s.regPlusImm a v) (s.getReg b)).delay + Config.busDelay)) := by
  simp [opStr, State.memWrite_bus _ h]

theorem opBit_inRange (f : Word → Nat → Word) (b : Reg) (v : Int) (s : State) (h : (s.opnd b v).toNat ≤ 15) :
    opBit f b v s = .next ((s.setReg b (f (s.getReg b) (s.opnd b v).toNat)).setFlags
      (f (s.getReg b) (s.opnd b v).toNat)) := by
  simp [opBit, bitIndex_eq, h]

theorem opBit_outOfRange (f : Word → Nat → Word) (b : Reg) (v : Int) (s : State)
    (h : 15 < (s.opnd b v).toNat) : opBit f b v s = .next s := by
  simp [opBit, bitIndex_eq, Nat.not_le.2 h]

theorem opArith_eq (f : Word → Word → Word) (a b : Reg) (v : Int) (s : State) :
    opArith f a b v s = .next ((s.setReg a (f (s.getReg a) (s.opnd b v))).setFlags
      (f (s.getReg a) (s.opnd b v))) := rfl

theorem opDivide_zero (f : Word → Word → Word) (a b : Reg) (v : Int) (s : State) (h : s.opnd b v = 0#16) :
    opDivide f a b v s = .next s := by simp [opDivide, h]

theorem opDivide_nonzero (f : Word → Word → Word) (a b : Reg) (v : Int) (s : State) (h : s.opnd b v ≠ 0#16) :
    opDivide f a b v s = opArith f a b v s := by simp [opDivide, h]

theorem opJmp_taken (a : Reg) (c : BitVec 3) (v : Int) (s : State) (h : condTaken c s.flags = true) :
    opJmp a c v s = .next (s.setReg .pc (s.regPlusImm a v)) := by simp [opJmp, h]

theorem opJmp_notTaken (a : Reg) (c : BitVec 3) (v : Int) (s : State) (h : condTaken c s.flags = false) :
    opJmp a c v s = .next s := by simp [opJmp, h]

theorem opDly_zero (b : Reg) (v : Int) (s : State) (h : (s.opnd b v).toNat = 0) : opDly b v s = .next s := by
  simp [opDly, h]

theorem opDly_pos (b : Reg) (v : Int) (s : State) (h : 1 ≤ (s.opnd b v).toNat) :
    opDly b v s = .next (s.setDelay ((s.opnd b v).toNat - 1)) := by simp [opDly, h]

/-! A bus access is one event, and its answer is the host's (20_memory.md R36, R37). -/

@[simp] theorem State.busRead_data (s : State) (a : Word) :
    (s.busRead a).data = Config.busReadData s.events s.cycles a := rfl
@[simp] theorem State.busRead_delay (s : State) (a : Word) :
    (s.busRead a).delay = (Config.busReadDelay s.events s.cycles a).toNat := rfl
@[simp] theorem State.busRead_state (s : State) (a : Word) :
    (s.busRead a).state =
      s.emit (.busRead a (Config.busReadData s.events s.cycles a) (Config.busReadDelay s.events s.cycles a)) := rfl
@[simp] theorem State.busWrite_delay (s : State) (a v : Word) :
    (s.busWrite a v).delay = (Config.busWriteDelay s.events s.cycles a v).toNat := rfl
@[simp] theorem State.busWrite_state (s : State) (a v : Word) :
    (s.busWrite a v).state = s.emit (.busWrite a v (Config.busWriteDelay s.events s.cycles a v)) := rfl

/-! ## Everything a shared meaning can answer -/

/-- LOD reads RAM below 0x8000, and else makes one bus access whose answer is free. -/
theorem opLod_cases {a b : Reg} {v : Int} {s t : State} (h : opLod a b v s = .next t) :
    ((s.opnd b v).toNat < 0x8000 ∧ t = (s.setReg a (s.ramRead (s.opnd b v))).addDelay Config.busDelay) ∨
    (0x8000 ≤ (s.opnd b v).toNat ∧
      t = ((s.busRead (s.opnd b v)).state.setReg a (s.busRead (s.opnd b v)).data).addDelay
        ((s.busRead (s.opnd b v)).delay + Config.busDelay)) := by
  cases hr : inRam (s.opnd b v)
  · rw [opLod_bus _ _ _ _ hr] at h
    injection h with h
    have hn := (inRam_iff (s.opnd b v)).not.1 (by simp [hr])
    exact .inr ⟨Nat.not_lt.1 hn, h.symm⟩
  · rw [opLod_ram _ _ _ _ hr] at h
    injection h with h
    exact .inl ⟨(inRam_iff _).1 hr, h.symm⟩

/-- STR writes RAM below 0x8000, and else makes one bus access whose delay is free. -/
theorem opStr_cases {a b : Reg} {v : Int} {s t : State} (h : opStr a b v s = .next t) :
    ((s.regPlusImm a v).toNat < 0x8000 ∧
      t = (s.ramWrite (s.regPlusImm a v) (s.getReg b)).addDelay Config.busDelay) ∨
    (0x8000 ≤ (s.regPlusImm a v).toNat ∧
      t = (s.busWrite (s.regPlusImm a v) (s.getReg b)).state.addDelay
        ((s.busWrite (s.regPlusImm a v) (s.getReg b)).delay + Config.busDelay)) := by
  cases hr : inRam (s.regPlusImm a v)
  · rw [opStr_bus _ _ _ _ hr] at h
    injection h with h
    have hn := (inRam_iff (s.regPlusImm a v)).not.1 (by simp [hr])
    exact .inr ⟨Nat.not_lt.1 hn, h.symm⟩
  · rw [opStr_ram _ _ _ _ hr] at h
    injection h with h
    exact .inl ⟨(inRam_iff _).1 hr, h.symm⟩

/-- BTS, BTC and BTF write one register and the flags when the index is in range, and else change nothing. -/
theorem opBit_cases {f : Word → Nat → Word} {b : Reg} {v : Int} {s t : State} (h : opBit f b v s = .next t) :
    ((s.opnd b v).toNat ≤ 15 ∧ t = (s.setReg b (f (s.getReg b) (s.opnd b v).toNat)).setFlags
      (f (s.getReg b) (s.opnd b v).toNat)) ∨ (15 < (s.opnd b v).toNat ∧ t = s) := by
  by_cases hk : (s.opnd b v).toNat ≤ 15
  · rw [opBit_inRange _ _ _ _ hk] at h
    injection h with h
    exact .inl ⟨hk, h.symm⟩
  · rw [opBit_outOfRange _ _ _ _ (Nat.not_le.1 hk)] at h
    injection h with h
    exact .inr ⟨Nat.not_le.1 hk, h.symm⟩

/-- DIV and MOD write one register and the flags, or change nothing when the operand is 0. -/
theorem opDivide_cases {f : Word → Word → Word} {a b : Reg} {v : Int} {s t : State}
    (h : opDivide f a b v s = .next t) :
    (s.opnd b v = 0#16 ∧ t = s) ∨ (s.opnd b v ≠ 0#16 ∧
      t = (s.setReg a (f (s.getReg a) (s.opnd b v))).setFlags (f (s.getReg a) (s.opnd b v))) := by
  by_cases hz : s.opnd b v = 0#16
  · rw [opDivide_zero _ _ _ _ _ hz] at h
    injection h with h
    exact .inl ⟨hz, h.symm⟩
  · rw [opDivide_nonzero _ _ _ _ _ hz, opArith_eq] at h
    injection h with h
    exact .inr ⟨hz, h.symm⟩

/-- JMP writes pc when it is taken, and else changes nothing. -/
theorem opJmp_cases {a : Reg} {c : BitVec 3} {v : Int} {s t : State} (h : opJmp a c v s = .next t) :
    (condTaken c s.flags = true ∧ t = s.setReg .pc (s.regPlusImm a v)) ∨
    (condTaken c s.flags = false ∧ t = s) := by
  cases hc : condTaken c s.flags
  · rw [opJmp_notTaken _ _ _ _ hc] at h
    injection h with h
    exact .inr ⟨rfl, h.symm⟩
  · rw [opJmp_taken _ _ _ _ hc] at h
    injection h with h
    exact .inl ⟨rfl, h.symm⟩

/-- DJZ writes one register and the flags, and pc too when the new value is 0. -/
theorem opDjz_cases {a b : Reg} {v : Int} {s t : State} (h : opDjz a b v s = .next t) :
    let w := sub16 (s.getReg a) 1#16
    let u := (s.setReg a w).setFlags w
    (w = 0#16 ∧ t = u.setReg .pc (u.regPlusImm b v)) ∨ (w ≠ 0#16 ∧ t = u) := by
  intro w u
  simp only [opDjz] at h
  injection h with h
  by_cases hw : w = 0#16
  · exact .inl ⟨hw, by rw [← h, if_pos hw]⟩
  · exact .inr ⟨hw, by rw [← h, if_neg hw]⟩

/-- DLY overwrites the pending delay when the count is at least 1, and else changes nothing. -/
theorem opDly_cases {b : Reg} {v : Int} {s t : State} (h : opDly b v s = .next t) :
    ((s.opnd b v).toNat = 0 ∧ t = s) ∨
    (1 ≤ (s.opnd b v).toNat ∧ t = s.setDelay ((s.opnd b v).toNat - 1)) := by
  rcases Nat.eq_zero_or_pos (s.opnd b v).toNat with hz | hp
  · rw [opDly_zero _ _ _ hz] at h
    injection h with h
    exact .inl ⟨hz, h.symm⟩
  · rw [opDly_pos _ _ _ hp] at h
    injection h with h
    exact .inr ⟨hp, h.symm⟩

/-- A push changes the one Word at sp modulo 0x8000. -/
theorem State.readByte_push_ne (s : State) (v : Word) {k : Nat} (h0 : k ≠ 2 * ((s.getReg .sp).toNat % 0x8000))
    (h1 : k ≠ 2 * ((s.getReg .sp).toNat % 0x8000) + 1) :
    Memory.readByte (s.push v).mem k = Memory.readByte s.mem k := by
  rw [State.push_mem, toNat_mask15]
  exact Memory.readByte_writeWord_ne _ _ _ h0 h1

/-- The Word a push stores. -/
theorem State.readWord_push_same {s : State} (hm : Memory.wf s.mem = true) (v : Word) :
    Memory.readWord (s.push v).mem ((s.getReg .sp).toNat % 0x8000) = v := by
  rw [State.push_mem, toNat_mask15]
  exact Memory.readWord_writeWord_same hm (Nat.mod_lt _ (by decide)) v

/-- Where a push leaves sp. -/
theorem State.push_sp (s : State) (v : Word) :
    ((s.push v).getReg .sp).toNat = ((s.getReg .sp).toNat + 0x7FFF) % 0x8000 := by
  have h : (s.push v).getReg .sp = mask15 (s.getReg .sp - 1#16) := rfl
  have hlt := (s.getReg .sp).isLt
  rw [h, toNat_mask15, BitVec.toNat_sub, BitVec.toNat_ofNat]
  omega

/-- The address a pop reads. -/
theorem toNat_popAddr (a : Word) : (mask15 (a + 1#16)).toNat = (a.toNat + 1) % 0x8000 := by
  rw [toNat_mask15, BitVec.toNat_add, BitVec.toNat_ofNat]
  omega

/-! ## The fetch (40_fetch_decode_execute_cycle.md R66 to R70) -/

/-- The net effect of a fetch: IR holds the first Word, pc is past the instruction, a LONG one has charged one delay
cycle; and the instruction is the one the two Words at pc decode to. -/
theorem State.fetch_eq (s : State) :
    s.fetch =
      (let w1 := s.ramRead (mask15 (s.getReg .pc))
       let w2 := s.ramRead (mask15 (mask15 (s.getReg .pc) + 1#16))
       let n : Word := if teenyField w1 then 1#16 else 2#16
       ({ s with
            regs := s.regs.set .pc (mask15 (s.getReg .pc) + n)
            ir := w1
            delay := s.delay + if teenyField w1 then 0 else 1 },
        decodeWords w1 w2)) := by
  have hreg : ∀ (f : RegFile) (u v : Word), (f.set .pc u).set .pc v = f.set .pc v := fun _ _ _ => rfl
  have hget : ∀ (f : RegFile) (u : Word), (f.set .pc u).get .pc = u := fun _ _ => rfl
  unfold State.fetch decodeWords
  simp only [State.advancePc, State.retreatPc, State.loadIr, State.maskPc, State.addDelay, State.immWord,
    State.setReg, State.getReg, State.ramRead, hreg, hget, Config.immFetchDelay]
  split <;> rename_i h <;> simp [h, BitVec.add_assoc]

end Sys2Proof.Machine
end

