-- ==== Sys2Proof/Laws/PerInstr.lean ====
section
/-! SUPPORT. What holds of every instruction as syntax, one lemma per constructor. -/

namespace Sys2Proof.Laws.EncodedLength

/-- A TEENY instruction is one Word and a LONG one is two, whatever its operands (30_encoding.md R50). -/
def Statement (i : Instr) : Prop := (encode i).length = if i.fields.teeny then 1 else 2

theorem setTeeny (a b : Reg) (v : Int) : Statement (.setTeeny a b v) := rfl
theorem setLong (a b : Reg) (l : BitVec 4) (v : Int) : Statement (.setLong a b l v) := rfl
theorem lodTeeny (a b : Reg) (v : Int) : Statement (.lodTeeny a b v) := rfl
theorem lodLong (a b : Reg) (l : BitVec 4) (v : Int) : Statement (.lodLong a b l v) := rfl
theorem strTeeny (a b : Reg) (v : Int) : Statement (.strTeeny a b v) := rfl
theorem strLong (a b : Reg) (l : BitVec 4) (v : Int) : Statement (.strLong a b l v) := rfl
theorem pshTeeny (a b : Reg) (v : Int) : Statement (.pshTeeny a b v) := rfl
theorem pshLong (a b : Reg) (l : BitVec 4) (v : Int) : Statement (.pshLong a b l v) := rfl
theorem popTeeny (a b : Reg) (v : Int) : Statement (.popTeeny a b v) := rfl
theorem popLong (a b : Reg) (l : BitVec 4) (v : Int) : Statement (.popLong a b l v) := rfl
theorem btsTeeny (a b : Reg) (v : Int) : Statement (.btsTeeny a b v) := rfl
theorem btsLong (a b : Reg) (l : BitVec 4) (v : Int) : Statement (.btsLong a b l v) := rfl
theorem btcTeeny (a b : Reg) (v : Int) : Statement (.btcTeeny a b v) := rfl
theorem btcLong (a b : Reg) (l : BitVec 4) (v : Int) : Statement (.btcLong a b l v) := rfl
theorem btfTeeny (a b : Reg) (v : Int) : Statement (.btfTeeny a b v) := rfl
theorem btfLong (a b : Reg) (l : BitVec 4) (v : Int) : Statement (.btfLong a b l v) := rfl
theorem calTeeny (a b : Reg) (v : Int) : Statement (.calTeeny a b v) := rfl
theorem calLong (a b : Reg) (l : BitVec 4) (v : Int) : Statement (.calLong a b l v) := rfl
theorem addTeeny (a b : Reg) (v : Int) : Statement (.addTeeny a b v) := rfl
theorem addLong (a b : Reg) (l : BitVec 4) (v : Int) : Statement (.addLong a b l v) := rfl
theorem subTeeny (a b : Reg) (v : Int) : Statement (.subTeeny a b v) := rfl
theorem subLong (a b : Reg) (l : BitVec 4) (v : Int) : Statement (.subLong a b l v) := rfl
theorem mpyTeeny (a b : Reg) (v : Int) : Statement (.mpyTeeny a b v) := rfl
theorem mpyLong (a b : Reg) (l : BitVec 4) (v : Int) : Statement (.mpyLong a b l v) := rfl
theorem divTeeny (a b : Reg) (v : Int) : Statement (.divTeeny a b v) := rfl
theorem divLong (a b : Reg) (l : BitVec 4) (v : Int) : Statement (.divLong a b l v) := rfl
theorem modTeeny (a b : Reg) (v : Int) : Statement (.modTeeny a b v) := rfl
theorem modLong (a b : Reg) (l : BitVec 4) (v : Int) : Statement (.modLong a b l v) := rfl
theorem andTeeny (a b : Reg) (v : Int) : Statement (.andTeeny a b v) := rfl
theorem andLong (a b : Reg) (l : BitVec 4) (v : Int) : Statement (.andLong a b l v) := rfl
theorem orTeeny (a b : Reg) (v : Int) : Statement (.orTeeny a b v) := rfl
theorem orLong (a b : Reg) (l : BitVec 4) (v : Int) : Statement (.orLong a b l v) := rfl
theorem xorTeeny (a b : Reg) (v : Int) : Statement (.xorTeeny a b v) := rfl
theorem xorLong (a b : Reg) (l : BitVec 4) (v : Int) : Statement (.xorLong a b l v) := rfl
theorem shfTeeny (a b : Reg) (v : Int) : Statement (.shfTeeny a b v) := rfl
theorem shfLong (a b : Reg) (l : BitVec 4) (v : Int) : Statement (.shfLong a b l v) := rfl
theorem rotTeeny (a b : Reg) (v : Int) : Statement (.rotTeeny a b v) := rfl
theorem rotLong (a b : Reg) (l : BitVec 4) (v : Int) : Statement (.rotLong a b l v) := rfl
theorem negTeeny (a b : Reg) (v : Int) : Statement (.negTeeny a b v) := rfl
theorem negLong (a b : Reg) (l : BitVec 4) (v : Int) : Statement (.negLong a b l v) := rfl
theorem cmpTeeny (a b : Reg) (v : Int) : Statement (.cmpTeeny a b v) := rfl
theorem cmpLong (a b : Reg) (l : BitVec 4) (v : Int) : Statement (.cmpLong a b l v) := rfl
theorem jmpTeeny (a b : Reg) (c : BitVec 3) (v : Int) : Statement (.jmpTeeny a b c v) := rfl
theorem jmpLong (a b : Reg) (x : Bool) (c : BitVec 3) (v : Int) : Statement (.jmpLong a b x c v) := rfl
theorem djzTeeny (a b : Reg) (v : Int) : Statement (.djzTeeny a b v) := rfl
theorem djzLong (a b : Reg) (l : BitVec 4) (v : Int) : Statement (.djzLong a b l v) := rfl
theorem dlyTeeny (a b : Reg) (v : Int) : Statement (.dlyTeeny a b v) := rfl
theorem dlyLong (a b : Reg) (l : BitVec 4) (v : Int) : Statement (.dlyLong a b l v) := rfl
theorem reserved24Teeny (a b : Reg) (v : Int) : Statement (.reserved24Teeny a b v) := rfl
theorem reserved24Long (a b : Reg) (l : BitVec 4) (v : Int) : Statement (.reserved24Long a b l v) := rfl
theorem reserved25Teeny (a b : Reg) (v : Int) : Statement (.reserved25Teeny a b v) := rfl
theorem reserved25Long (a b : Reg) (l : BitVec 4) (v : Int) : Statement (.reserved25Long a b l v) := rfl
theorem reserved26Teeny (a b : Reg) (v : Int) : Statement (.reserved26Teeny a b v) := rfl
theorem reserved26Long (a b : Reg) (l : BitVec 4) (v : Int) : Statement (.reserved26Long a b l v) := rfl
theorem reserved27Teeny (a b : Reg) (v : Int) : Statement (.reserved27Teeny a b v) := rfl
theorem reserved27Long (a b : Reg) (l : BitVec 4) (v : Int) : Statement (.reserved27Long a b l v) := rfl
theorem reserved28Teeny (a b : Reg) (v : Int) : Statement (.reserved28Teeny a b v) := rfl
theorem reserved28Long (a b : Reg) (l : BitVec 4) (v : Int) : Statement (.reserved28Long a b l v) := rfl
theorem reserved29Teeny (a b : Reg) (v : Int) : Statement (.reserved29Teeny a b v) := rfl
theorem reserved29Long (a b : Reg) (l : BitVec 4) (v : Int) : Statement (.reserved29Long a b l v) := rfl
theorem reserved30Teeny (a b : Reg) (v : Int) : Statement (.reserved30Teeny a b v) := rfl
theorem reserved30Long (a b : Reg) (l : BitVec 4) (v : Int) : Statement (.reserved30Long a b l v) := rfl
theorem reserved31Teeny (a b : Reg) (v : Int) : Statement (.reserved31Teeny a b v) := rfl
theorem reserved31Long (a b : Reg) (l : BitVec 4) (v : Int) : Statement (.reserved31Long a b l v) := rfl

end Sys2Proof.Laws.EncodedLength
end

