-- ==== Sys2Proof/Tests/Slice0.lean ====
section
/-! SUPPORT. The model's own tests: ill-formed terms, the decoding of Words written out from the spec's encodings,
one tick of each instruction on the vectors of spec/95_test_vectors.md part 2 (the id stands in each name), and a
state or operands that meet the hypotheses of each obligation. -/

namespace Sys2Proof.Tests

open Sys2Proof.Machine

/-! ## Ill-formed terms -/

theorem test_wellFormed_refuses_teeny_8 : (Instr.addTeeny .ra .rz 8).wellFormed = false := by decide
theorem test_wellFormed_refuses_teeny_minus_9 : (Instr.addTeeny .ra .rz (-9)).wellFormed = false := by decide
theorem test_wellFormed_refuses_long_32768 : (Instr.addLong .ra .rz 0 32768).wellFormed = false := by decide
theorem test_wellFormed_refuses_long_minus_32769 : (Instr.addLong .ra .rz 0 (-32769)).wellFormed = false := by
  decide
theorem test_wellFormed_refuses_jmp_cond_mismatch : (Instr.jmpTeeny .ra .rz 0b010#3 3).wellFormed = false := by
  decide
theorem test_wellFormed_admits_jmp_cond_match : (Instr.jmpTeeny .ra .rz 0b100#3 (-4)).wellFormed = true := by decide

/-! ## Decoding: Words written bit by bit from the rows of 30_encoding.md R56 and R58 (R51 to R55 for the fields) -/

theorem test_decode_set : decodeWords 0b0000010011101001#16 0x0000#16 = .setTeeny .sp .rd (-7) ∧
    decodeWords 0b0000001100011001#16 0x1234#16 = .setLong .rd .sp 9#4 4660 := by decide
theorem test_decode_lod : decodeWords 0b0000111000110000#16 0x0000#16 = .lodTeeny .rb .ra 0 ∧
    decodeWords 0b0000100111000000#16 0x8BE5#16 = .lodLong .ra .rb 0#4 (-29723) := by decide
theorem test_decode_str : decodeWords 0b0001011110000111#16 0x0000#16 = .strTeeny .re .pc 7 ∧
    decodeWords 0b0001000001110111#16 0x0596#16 = .strLong .pc .re 7#4 1430 := by decide
theorem test_decode_psh : decodeWords 0b0001110101011110#16 0x0000#16 = .pshTeeny .rz .rc (-2) ∧
    decodeWords 0b0001101010101110#16 0x7F47#16 = .pshLong .rc .rz 14#4 32583 := by decide
theorem test_decode_pop : decodeWords 0b0010011010100101#16 0x0000#16 = .popTeeny .rc .rz 5 ∧
    decodeWords 0b0010000101010101#16 0xF8F8#16 = .popLong .rz .rc 5#4 (-1800) := by decide
theorem test_decode_bts : decodeWords 0b0010110001111100#16 0x0000#16 = .btsTeeny .pc .re (-4) ∧
    decodeWords 0b0010101110001100#16 0x72A9#16 = .btsLong .re .pc 12#4 29353 := by decide
theorem test_decode_btc : decodeWords 0b0011010111000011#16 0x0000#16 = .btcTeeny .ra .rb 3 ∧
    decodeWords 0b0011001000110011#16 0xEC5A#16 = .btcLong .rb .ra 3#4 (-5030) := by decide
theorem test_decode_btf : decodeWords 0b0011111100011010#16 0x0000#16 = .btfTeeny .rd .sp (-6) ∧
    decodeWords 0b0011100011101010#16 0x660B#16 = .btfLong .sp .rd 10#4 26123 := by decide
theorem test_decode_cal : decodeWords 0b0100010011100001#16 0x0000#16 = .calTeeny .sp .rd 1 ∧
    decodeWords 0b0100001100010001#16 0xDFBC#16 = .calLong .rd .sp 1#4 (-8260) := by decide
theorem test_decode_add : decodeWords 0b0100111000111000#16 0x0000#16 = .addTeeny .rb .ra (-8) ∧
    decodeWords 0b0100100111001000#16 0x596D#16 = .addLong .ra .rb 8#4 22893 := by decide
theorem test_decode_sub : decodeWords 0b0101011110001111#16 0x0000#16 = .subTeeny .re .pc (-1) ∧
    decodeWords 0b0101000001111111#16 0xD31E#16 = .subLong .pc .re 15#4 (-11490) := by decide
theorem test_decode_mpy : decodeWords 0b0101110101010110#16 0x0000#16 = .mpyTeeny .rz .rc 6 ∧
    decodeWords 0b0101101010100110#16 0x4CCF#16 = .mpyLong .rc .rz 6#4 19663 := by decide
theorem test_decode_div : decodeWords 0b0110011010101101#16 0x0000#16 = .divTeeny .rc .rz (-3) ∧
    decodeWords 0b0110000101011101#16 0xC680#16 = .divLong .rz .rc 13#4 (-14720) := by decide
theorem test_decode_mod : decodeWords 0b0110110001110100#16 0x0000#16 = .modTeeny .pc .re 4 ∧
    decodeWords 0b0110101110000100#16 0x4031#16 = .modLong .re .pc 4#4 16433 := by decide
theorem test_decode_and : decodeWords 0b0111010111001011#16 0x0000#16 = .andTeeny .ra .rb (-5) ∧
    decodeWords 0b0111001000111011#16 0xB9E2#16 = .andLong .rb .ra 11#4 (-17950) := by decide
theorem test_decode_or : decodeWords 0b0111111100010010#16 0x0000#16 = .orTeeny .rd .sp 2 ∧
    decodeWords 0b0111100011100010#16 0x3393#16 = .orLong .sp .rd 2#4 13203 := by decide
theorem test_decode_xor : decodeWords 0b1000010011101001#16 0x0000#16 = .xorTeeny .sp .rd (-7) ∧
    decodeWords 0b1000001100011001#16 0xAD44#16 = .xorLong .rd .sp 9#4 (-21180) := by decide
theorem test_decode_shf : decodeWords 0b1000111000110000#16 0x0000#16 = .shfTeeny .rb .ra 0 ∧
    decodeWords 0b1000100111000000#16 0x26F5#16 = .shfLong .ra .rb 0#4 9973 := by decide
theorem test_decode_rot : decodeWords 0b1001011110000111#16 0x0000#16 = .rotTeeny .re .pc 7 ∧
    decodeWords 0b1001000001110111#16 0xA0A6#16 = .rotLong .pc .re 7#4 (-24410) := by decide
theorem test_decode_neg : decodeWords 0b1001110101011110#16 0x0000#16 = .negTeeny .rz .rc (-2) ∧
    decodeWords 0b1001101010101110#16 0x1A57#16 = .negLong .rc .rz 14#4 6743 := by decide
theorem test_decode_cmp : decodeWords 0b1010011010100101#16 0x0000#16 = .cmpTeeny .rc .rz 5 ∧
    decodeWords 0b1010000101010101#16 0x9408#16 = .cmpLong .rz .rc 5#4 (-27640) := by decide
theorem test_decode_jmp : decodeWords 0b1010110001111100#16 0x0000#16 = .jmpTeeny .pc .re 0b100#3 (-4) ∧
    decodeWords 0b1010101110001100#16 0x0DB9#16 = .jmpLong .re .pc true 0b100#3 3513 := by decide
theorem test_decode_djz : decodeWords 0b1011010111000011#16 0x0000#16 = .djzTeeny .ra .rb 3 ∧
    decodeWords 0b1011001000110011#16 0x876A#16 = .djzLong .rb .ra 3#4 (-30870) := by decide
theorem test_decode_dly : decodeWords 0b1011111100011010#16 0x0000#16 = .dlyTeeny .rd .sp (-6) ∧
    decodeWords 0b1011100011101010#16 0x011B#16 = .dlyLong .sp .rd 10#4 283 := by decide
theorem test_decode_reserved24 : decodeWords 0b1100010011100001#16 0x0000#16 = .reserved24Teeny .sp .rd 1 ∧
    decodeWords 0b1100001100010001#16 0x7ACC#16 = .reserved24Long .rd .sp 1#4 31436 := by decide
theorem test_decode_reserved25 : decodeWords 0b1100111000111000#16 0x0000#16 = .reserved25Teeny .rb .ra (-8) ∧
    decodeWords 0b1100100111001000#16 0xF47D#16 = .reserved25Long .ra .rb 8#4 (-2947) := by decide
theorem test_decode_reserved26 : decodeWords 0b1101011110001111#16 0x0000#16 = .reserved26Teeny .re .pc (-1) ∧
    decodeWords 0b1101000001111111#16 0x6E2E#16 = .reserved26Long .pc .re 15#4 28206 := by decide
theorem test_decode_reserved27 : decodeWords 0b1101110101010110#16 0x0000#16 = .reserved27Teeny .rz .rc 6 ∧
    decodeWords 0b1101101010100110#16 0xE7DF#16 = .reserved27Long .rc .rz 6#4 (-6177) := by decide
theorem test_decode_reserved28 : decodeWords 0b1110011010101101#16 0x0000#16 = .reserved28Teeny .rc .rz (-3) ∧
    decodeWords 0b1110000101011101#16 0x6190#16 = .reserved28Long .rz .rc 13#4 24976 := by decide
theorem test_decode_reserved29 : decodeWords 0b1110110001110100#16 0x0000#16 = .reserved29Teeny .pc .re 4 ∧
    decodeWords 0b1110101110000100#16 0xDB41#16 = .reserved29Long .re .pc 4#4 (-9407) := by decide
theorem test_decode_reserved30 : decodeWords 0b1111010111001011#16 0x0000#16 = .reserved30Teeny .ra .rb (-5) ∧
    decodeWords 0b1111001000111011#16 0x54F2#16 = .reserved30Long .rb .ra 11#4 21746 := by decide
theorem test_decode_reserved31 : decodeWords 0b1111111100010010#16 0x0000#16 = .reserved31Teeny .rd .sp 2 ∧
    decodeWords 0b1111100011100010#16 0xCEA3#16 = .reserved31Long .sp .rd 2#4 (-12637) := by decide

/-- The table numbers bit 0 as the least significant bit of the first Word, the second Word as bits 31..16. -/
theorem test_decodeTableWord_long : decodeTableWord 32 0x006401A0 = some (.setLong .ra .rz 0 100) := by decide
theorem test_decodeTableWord_short : decodeTableWord 16 0x01A0 = some (.setLong .ra .rz 0 0) ∧
    decodeTableWord 16 0x05A5 = some (.setTeeny .ra .rz 5) := by decide
theorem test_decode_refuses_missing_words : decode [] = .error .noWord ∧ decode [0x01A0] = .error .noImmediate ∧
    decodeBytes [0xA5] = .error .halfWord := by decide

/-! ## One tick -/

def flagE : Flags := ⟨true, false, false⟩
def flagL : Flags := ⟨false, true, false⟩
def flagG : Flags := ⟨false, false, true⟩
def flag0 : Flags := ⟨false, false, false⟩

/-- The reset state with registers pc, sp, ra, rb, with flags, and with two Words at pc. -/
def start (pc sp ra rb : Word) (f : Flags) (w1 w2 : Word) : State :=
  ({ State.reset with regs := ⟨pc, sp, 0, ra, rb, 0, 0, 0⟩, flags := f } : State).placeWords w1 w2

/-- After one tick: pc, sp, ra and the flags. -/
def seen (s : State) : Option (Word × Word × Word × Flags) :=
  (nextOf (step s)).map fun t => (t.getReg .pc, t.getReg .sp, t.getReg .ra, t.flags)

/-- After one tick: a Word of RAM. -/
def ramAfter (a : Word) (s : State) : Option Word := (nextOf (step s)).map fun t => t.ramRead a

/-- After one tick: the pending delay and the executed instructions. -/
def countersAfter (s : State) : Option (Nat × Nat) := (nextOf (step s)).map fun t => (t.delay, t.cycles)

/-- After one tick: the output events. -/
def eventsAfter (s : State) : Option (List Event) := (nextOf (step s)).map State.events

theorem test_F1_setTeeny : seen (start 0 0x7FFF 0 0 flag0 0x05A5 0) =
    some (0x1, 0x7FFF, 0x5, flag0) := by decide
theorem test_M10_setTeeny : seen (start 0 0x7FFF 0xFFFF 0 flagL 0x05B1 0) =
    some (0x1, 0x7FFF, 0, flagL) := by decide
theorem test_M9_setLong : seen (start 0 0x7FFF 0 0xFFF0 flag0 0x01C0 0x64) =
    some (0x2, 0x7FFF, 0x54, flag0) := by decide
theorem test_F6_setLong_7FFE : seen (start 0x7FFE 0x7FFF 0 0 flag0 0x01A0 0x42) =
    some (0x8000, 0x7FFF, 0x42, flag0) := by decide
theorem test_B1_btsTeeny : seen (start 0 0x7FFF 0x4 0 flag0 0x2D30 0) =
    some (0x1, 0x7FFF, 0x14, flagG) := by decide
theorem test_B4_btsTeeny_index_16 : seen (start 0 0x7FFF 0x10 0 flagE 0x2D30 0) =
    some (0x1, 0x7FFF, 0x10, flagE) := by decide
theorem test_B3_btsLong_index_15 : seen (start 0 0x7FFF 0x4 0 flag0 0x2930 0xB) =
    some (0x2, 0x7FFF, 0x8004, flagL) := by decide
theorem test_B9_btcTeeny : seen (start 0 0x7FFF 0x2 0 flag0 0x353F 0) =
    some (0x1, 0x7FFF, 0, flagE) := by decide
theorem test_B11_btcTeeny_index_8000 : seen (start 0 0x7FFF 0x8000 0 flagG 0x3530 0) =
    some (0x1, 0x7FFF, 0x8000, flagG) := by decide
theorem test_B10_btcLong : seen (start 0 0x7FFF 0x8000 0 flag0 0x3130 0x800F) =
    some (0x2, 0x7FFF, 0, flagE) := by decide
theorem test_B12_btfTeeny : seen (start 0 0x7FFF 0x1 0 flag0 0x3D30 0) =
    some (0x1, 0x7FFF, 0x3, flagG) := by decide
theorem test_B13_btfTeeny : seen (start 0 0x7FFF 0x1 0 flag0 0x3D3F 0) =
    some (0x1, 0x7FFF, 0, flagE) := by decide
theorem test_B14_btfLong : seen (start 0 0x7FFF 0 0 flag0 0x3930 0xF) =
    some (0x2, 0x7FFF, 0x8000, flagL) := by decide
theorem test_K2_addTeeny : seen (start 0 0x7FFF 0x7FFF 0 flag0 0x4DA1 0) =
    some (0x1, 0x7FFF, 0x8000, flagL) := by decide
theorem test_K6_addTeeny_pc : seen (start 0x10 0x7FFF 0 0 flag0 0x4C23 0) =
    some (0x14, 0x7FFF, 0, flagG) := by decide
theorem test_K4_addLong : seen (start 0 0x7FFF 0x1 0x2 flag0 0x49C0 0x64) =
    some (0x2, 0x7FFF, 0x67, flagG) := by decide
theorem test_K9_subTeeny : seen (start 0 0x7FFF 0x3 0x5 flag0 0x55C0 0) =
    some (0x1, 0x7FFF, 0xFFFE, flagL) := by decide
theorem test_K11_subTeeny : seen (start 0 0x7FFF 0x8000 0 flag0 0x55A1 0) =
    some (0x1, 0x7FFF, 0x7FFF, flagG) := by decide
theorem test_K13_mpyTeeny : seen (start 0 0x7FFF 0x12C 0x12C flag0 0x5DC0 0) =
    some (0x1, 0x7FFF, 0x5F90, flagG) := by decide
theorem test_K17_mpyTeeny : seen (start 0 0x7FFF 0xFFFD 0 flag0 0x5DA5 0) =
    some (0x1, 0x7FFF, 0xFFF1, flagL) := by decide
theorem test_K24_divTeeny_signed : seen (start 0 0x7FFF 0x9C40 0 flag0 0x65A2 0) =
    some (0x1, 0x7FFF, 0xCE20, flagL) := by decide
theorem test_K19_divTeeny_truncates : seen (start 0 0x7FFF 0xFFF9 0x2 flag0 0x65C0 0) =
    some (0x1, 0x7FFF, 0xFFFD, flagL) := by decide
theorem test_K32_divLong_by_zero : seen (start 0 0x7FFF 0x7 0 flagG 0x61A0 0) =
    some (0x2, 0x7FFF, 0x7, flagG) := by decide
theorem test_K26_modTeeny : seen (start 0 0x7FFF 0xFFF9 0x2 flag0 0x6DC0 0) =
    some (0x1, 0x7FFF, 0xFFFF, flagL) := by decide
theorem test_K27_modTeeny : seen (start 0 0x7FFF 0x7 0 flag0 0x6DAE 0) =
    some (0x1, 0x7FFF, 0x1, flagG) := by decide
theorem test_K34_andLong : seen (start 0 0x7FFF 0x1234 0 flag0 0x71A0 0xFF) =
    some (0x2, 0x7FFF, 0x34, flagG) := by decide
theorem test_K35_andTeeny : seen (start 0 0x7FFF 0x8234 0 flag0 0x75AF 0) =
    some (0x1, 0x7FFF, 0x8234, flagL) := by decide
theorem test_K37_orTeeny : seen (start 0 0x7FFF 0xF0 0x8001 flag0 0x7DC0 0) =
    some (0x1, 0x7FFF, 0x80F1, flagL) := by decide
theorem test_K40_xorTeeny : seen (start 0 0x7FFF 0xFF 0 flag0 0x85AF 0) =
    some (0x1, 0x7FFF, 0xFF00, flagL) := by decide
theorem test_H9_shfTeeny_logical : seen (start 0 0x7FFF 0x8000 0 flag0 0x8DA1 0) =
    some (0x1, 0x7FFF, 0x4000, flagG) := by decide
theorem test_H2_shfTeeny_left : seen (start 0 0x7FFF 0x1234 0 flag0 0x8DAC 0) =
    some (0x1, 0x7FFF, 0x2340, flagG) := by decide
theorem test_H6_shfLong_left_15 : seen (start 0 0x7FFF 0x1 0 flag0 0x89A0 0xFFF1) =
    some (0x2, 0x7FFF, 0x8000, flagL) := by decide
theorem test_H12_shfLong_minus_32768 : seen (start 0 0x7FFF 0xFFFF 0 flag0 0x89A0 0x8000) =
    some (0x2, 0x7FFF, 0, flagE) := by decide
theorem test_H14_rotTeeny : seen (start 0 0x7FFF 0x8001 0 flagL 0x95A1 0) =
    some (0x1, 0x7FFF, 0x8001, flagL) := by decide
theorem test_H15_rotLong : seen (start 0 0x7FFF 0x8001 0 flagL 0x91A0 0x64) =
    some (0x2, 0x7FFF, 0x8001, flagL) := by decide
theorem test_H16_negTeeny : seen (start 0 0x7FFF 0x5 0 flag0 0x9DA0 0) =
    some (0x1, 0x7FFF, 0xFFFB, flagL) := by decide
theorem test_H18_negTeeny : seen (start 0 0x7FFF 0x8000 0 flag0 0x9DA0 0) =
    some (0x1, 0x7FFF, 0x8000, flagL) := by decide
theorem test_H25_cmpTeeny_wraps : seen (start 0 0x7FFF 0x8000 0 flag0 0xA5A1 0) =
    some (0x1, 0x7FFF, 0x8000, flagG) := by decide
theorem test_H24_cmpLong : seen (start 0 0x7FFF 0xA 0 flag0 0xA1A0 0xA) =
    some (0x2, 0x7FFF, 0xA, flagE) := by decide
theorem test_S9_popTeeny_wraps : seen (start 0 0x7FFF 0 0 flag0 0x25A0 0) =
    some (0x1, 0, 0x25A0, flag0) := by decide
theorem test_S14_calLong : seen (start 0x4 0x7FFF 0 0 flagE 0x4120 0x20) =
    some (0x20, 0x7FFE, 0, flagE) := by decide
theorem test_S18_calTeeny_sp : seen (start 0x10 0x7FFF 0 0 flag0 0x4510 0) =
    some (0x7FFE, 0x7FFE, 0, flag0) := by decide
theorem test_J1_jmpLong_je_taken : seen (start 0x4 0x7FFF 0 0 flagE 0xA924 0x10) =
    some (0x10, 0x7FFF, 0, flagE) := by decide
theorem test_J1_jmpLong_jg_not_taken : seen (start 0x4 0x7FFF 0 0 flagL 0xA921 0x10) =
    some (0x6, 0x7FFF, 0, flagL) := by decide
theorem test_J11_jmpTeeny_taken : seen (start 0x5 0x7FFF 0 0 flagG 0xAD23 0) =
    some (0x3, 0x7FFF, 0, flagG) := by decide
theorem test_J12_jmpTeeny_negative : seen (start 0x5 0x7FFF 0 0 flagE 0xAD2C 0) =
    some (0xFFFC, 0x7FFF, 0, flagE) := by decide
theorem test_Z1_djzLong_taken : seen (start 0 0x7FFF 0x1 0 flag0 0xB1A0 0x100) =
    some (0x100, 0x7FFF, 0, flagE) := by decide
theorem test_Z3_djzTeeny_not_taken : seen (start 0x8 0x7FFF 0 0 flag0 0xB5A2 0) =
    some (0x9, 0x7FFF, 0xFFFF, flagL) := by decide
theorem test_Z6_djzTeeny_same_register : seen (start 0x8 0x7FFF 0x1 0 flag0 0xB5B5 0) =
    some (0x5, 0x7FFF, 0, flagE) := by decide
theorem test_F9_register_zero : (nextOf (step (start 0 0x7FFF 0 0 flag0 0x0525 0))).map (·.getReg .rz) = some 0 := by
  decide
theorem test_S13_popLong : seen ((start 0 0x7FFE 0 0 flag0 0x21A0 0x7777).ramWrite 0x7FFF 0x42) =
    some (2, 0x7FFF, 0x42, flag0) := by decide
theorem test_S11_popTeeny_sp : seen ((start 0 0x7FF0 0 0 flag0 0x24A0 0).ramWrite 0x7FF1 0x1234) =
    some (1, 0x1234, 0, flag0) := by decide
theorem test_S12_popTeeny_is_ret : seen ((start 0x20 0x7FFE 0 0 flag0 0x2400 0).ramWrite 0x7FFF 6) =
    some (6, 0x7FFF, 0, flag0) := by decide
theorem test_S7_pshTeeny_masks_sp : ramAfter 5 (start 0 0x8005 0x42 0 flag0 0x1D30 0) = some 0x42 ∧
    seen (start 0 0x8005 0x42 0 flag0 0x1D30 0) = some (1, 4, 0x42, flag0) := by decide
theorem test_S5_pshTeeny_old_sp : ramAfter 0x7FFF (start 0 0x7FFF 0 0 flag0 0x1D10 0) = some 0x7FFF := by decide
theorem test_S2_pshLong : ramAfter 0x7FFF (start 0 0x7FFF 0 0 flag0 0x1920 0x12C) = some 0x12C := by decide
theorem test_S19_calTeeny_return_address : ramAfter 0x7FFF (start 0x7FFF 0x7FFF 0 0 flag0 0x4523 0) =
    some 0x8000 := by decide
theorem test_M1_lodTeeny : seen ((start 0 0x7FFF 0 0x100 flagL 0x0DC2 0).ramWrite 0x102 0xBEEF) =
    some (1, 0x7FFF, 0xBEEF, flagL) := by decide
theorem test_M2_lodLong_top : seen ((start 0 0x7FFF 0 0 flag0 0x09A0 0x7FFF).ramWrite 0x7FFF 0x1111) =
    some (2, 0x7FFF, 0x1111, flag0) ∧
    eventsAfter ((start 0 0x7FFF 0 0 flag0 0x09A0 0x7FFF).ramWrite 0x7FFF 0x1111) = some [] := by decide
/-- M3: the answers are the host's, so the delay is stated with them. -/
theorem test_M3_lodLong_bus : countersAfter (start 0 0x7FFF 0 0 flag0 0x09A0 0x8000) =
    some (1 + ((Config.busReadDelay [] 0 0x8000).toNat + Config.busDelay), 1) := by rfl
theorem test_M5_lodTeeny_bus : eventsAfter (start 0 0x7FFF 0 0 flag0 0x0DCF 0) =
    some [.busRead 0xFFFF (Config.busReadData [] 0 0xFFFF) (Config.busReadDelay [] 0 0xFFFF)] := by rfl
theorem test_M11_strTeeny : ramAfter 0x201 (start 0 0x7FFF 0x200 0x1234 flag0 0x15C1 0) = some 0x1234 := by decide
theorem test_M17_strTeeny_bus : eventsAfter (start 0 0x7FFF 0 7 flag0 0x15CF 0) =
    some [.busWrite 0xFFFF 7 (Config.busWriteDelay [] 0 0xFFFF 7)] := by rfl
theorem test_M13_strLong_top : ramAfter 0x7FFF (start 0 0x7FFF 0x55 0 flag0 0x1130 0x7FFF) = some 0x55 := by decide
theorem test_M12_strLong_bus : eventsAfter (start 0 0x7FFF 0x55 0 flag0 0x1130 0x9000) =
    some [.busWrite 0x9000 0x55 (Config.busWriteDelay [] 0 0x9000 0x55)] := by rfl
theorem test_Y1_dlyTeeny : countersAfter (start 0 0x7FFF 0 0 flag0 0xBD25 0) = some (4, 1) := by decide
theorem test_Y8_dlyTeeny_unsigned : countersAfter (start 0 0x7FFF 0 0 flag0 0xBD2F 0) = some (65534, 1) := by decide
theorem test_Y4_dlyLong_overwrites : countersAfter (start 0 0x7FFF 0 0 flag0 0xB920 0x64) = some (99, 1) := by decide
theorem test_Y5_dlyLong_zero : countersAfter (start 0 0x7FFF 0 0 flag0 0xB920 0) = some (1, 1) := by decide
theorem test_X1_reserved24Teeny : eventsAfter (start 3 0x7FFF 0 0 flagG 0xC400 0) = some [.report 24] ∧
    seen (start 3 0x7FFF 0 0 flagG 0xC400 0) = some (4, 0x7FFF, 0, flagG) := by decide
theorem test_X4_reserved27Teeny : eventsAfter (start 3 0x7FFF 0 0 flag0 0xDC00 0) = some [.report 27] := by decide
theorem test_X3_reserved31Long : eventsAfter (start 3 0x7FFF 0 0 flag0 0xF800 0x1234) = some [.report 31] ∧
    countersAfter (start 3 0x7FFF 0 0 flag0 0xF800 0x1234) = some (1, 1) := by decide
theorem test_F5_long_at_top : seen ((start 0x7FFF 0x7FFF 0 0 flag0 0x01A0 0x1234)) =
    some (0x8001, 0x7FFF, 0x1234, flag0) := by decide
theorem test_F7_pc_masked : seen (start 0x8003 0x7FFF 0 0 flag0 0x05A5 0) = some (4, 0x7FFF, 5, flag0) := by decide
theorem test_F8_busy_tick : countersAfter ((start 0 0x7FFF 0 0 flag0 0x05A5 0).setDelay 3) = some (2, 0) ∧
    seen ((start 0 0x7FFF 0 0 flag0 0x05A5 0).setDelay 3) = some (0, 0x7FFF, 0, flag0) := by decide

/-- The very next step after `withFetchWord` runs the instruction, from reset and with a delay pending. -/
theorem test_withFetchWord : seen (State.reset.withFetchWord 16 0x05A5) = some (1, 0x7FFF, 5, flag0) ∧
    seen ((State.reset.setDelay 9).withFetchWord 32 0x006401A0) = some (2, 0x7FFF, 100, flag0) := by decide

/-! ## The assembler (95_test_vectors.md section 2.8) -/

/-- E9: the source's concrete scenario, assembled and run. -/
theorem test_E9_scenario : assemble "set ra, 5\nadd ra, 3\n".toList = .ok ⟨[0x05A5, 0x4DA3], 1, true⟩ ∧
    (nextOf (Sys2Proof.core.run 2 (State.reset.resetState [0x05A5, 0x4DA3]))).map
      (fun t => (t.getReg .ra, t.cycles, t.delay)) = some (8, 2, 0) := by decide
theorem test_A5_lexing : assemble "SET RA, 0X1f ; comment\n\n   ; only comment\nAdd ra,,rb".toList =
    .ok ⟨[0x01A0, 0x001F, 0x4DC0], 1, true⟩ := by decide
theorem test_A11_raw : assemble ".raw 1 0x10 !x 65535 65536 -1\n!x\n".toList =
    .ok ⟨[1, 0x10, 6, 0xFFFF, 0, 0xFFFF], 2, true⟩ := by decide
theorem test_A16_str_value_first : assemble "str [5], ra".toList = .ok ⟨[0x1535], 1, true⟩ := by decide
theorem test_A23_boundary : assemble "set ra, -9".toList = .ok ⟨[0x01A0, 0xFFF7], 1, true⟩ := by decide
theorem test_A30_forward_reference : assemble "jmp !end\nadd ra, 1\nadd ra, 2\n!end\njmp !end\n".toList =
    .ok ⟨[0xA920, 4, 0x4DA1, 0x4DA2, 0xA920, 4], 2, true⟩ := by decide
theorem test_A37_constant_not_backpatched : assemble "set ra, ten\n.const ten 10\nset rb, ten\n".toList =
    .ok ⟨[0x05A0, 0x0220, 0x000A], 1, true⟩ := by decide
theorem test_A40_repeated_var : assemble "jmp !s\n.var v 7\n.var v 9\n!s\nlod ra, [v]\n".toList =
    .ok ⟨[0xA920, 4, 7, 9, 0x0DA2], 2, true⟩ := by decide
/-- R129: `.var` enters its NAME before it resolves its VALUE, in the first pass already. -/
theorem test_R129_var_of_itself : (runPass [] [] [.raw [(false, "5".toList)], .var "x".toList (some "x".toList) false]).out =
    [5, 1] := by decide
/-- Log 24: a minus sign on a label line has no effect. -/
theorem test_log24_minus_on_label : assemble "-!x\njmp !x".toList = .ok ⟨[0xA920, 0], 2, true⟩ := by decide
theorem test_assembler_refuses_unknown_mnemonic : assemble "frob ra".toList = .error .unknownMnemonic := by decide
theorem test_image_bytes : assembleBytes "set ra, 5".toList = .ok [0xA5, 0x05] := by decide

/-! ## Witnesses: for each obligation with hypotheses, inputs that meet them, a clause at a time at its boundary -/

/-- RAM with one Word, in canonical form. -/
def oneWord (a v : Word) : State := State.reset.ramWrite a v

/-- O1: images of the smallest and of the largest size. -/
theorem witness_LoadAndResetGiveResetState : ([] : List Word).length ≤ 0x8000 ∧
    (List.replicate 0x8000 (1#16 : Word)).length ≤ 0x8000 :=
  ⟨Nat.zero_le _, by rw [List.length_replicate]⟩

theorem witness_LoadAndResetGiveResetState_reset : IsResetState State.reset [] :=
  ⟨rfl, rfl, by intro r h; cases r <;> first | rfl | exact absurd rfl h, rfl, rfl, rfl,
    fun a h => absurd h (Nat.not_lt_zero a), fun _ _ _ => by
      show Word.ofBytes 0#8 0#8 = 0#16
      decide⟩

/-- O2: a load and two ticks. -/
theorem witness_ResetAfterAnyRunMatchesLoad : ∃ l l', Launch.load none [0x05A5, 0x4DA3] = .ok l ∧
    Launch.ticks 2 l = .ok l' := ⟨_, _, rfl, rfl⟩

/-- O4: the ends of both immediate ranges. -/
theorem witness_DecodeOfEncodeIsIdentity : (Instr.addTeeny .ra .rb (-8)).wellFormed = true ∧
    (Instr.addTeeny .ra .rb 7).wellFormed = true ∧ (Instr.addLong .ra .rb 15 (-32768)).wellFormed = true ∧
    (Instr.addLong .ra .rb 0 32767).wellFormed = true ∧ (Instr.jmpTeeny .ra .rb 7 (-1)).wellFormed = true ∧
    (Instr.jmpLong .ra .rb true 7 32767).wellFormed = true := by decide

/-- O8: an odd length. -/
theorem witness_ImageBytesRoundTrip : ([0xA5#8] : List Byte).length % 2 = 1 := by decide

/-- The hypotheses of O9 on two pairs of Words. -/
abbrev AgreeWhereUsed (w1 w2 w1' w2' : Word) : Prop :=
  opcodeField w1 = opcodeField w1' ∧ teenyField w1 = teenyField w1' ∧
  ((Opcode.ofCode (opcodeField w1)).ignoresReg1 = false → reg1Field w1 = reg1Field w1') ∧
  ((Opcode.ofCode (opcodeField w1)).ignoresReg2 = false → reg2Field w1 = reg2Field w1') ∧
  ((Opcode.ofCode (opcodeField w1)).ignoresImm = false →
    if teenyField w1 then low4Field w1 = low4Field w1' else w2 = w2') ∧
  (Opcode.ofCode (opcodeField w1) = .jmp → (low4Field w1).extractLsb' 0 3 = (low4Field w1').extractLsb' 0 3)

/-- O9: different Words that agree where the instruction looks: reg1 of psh differs, or reg2 and the immediate of
neg, the second Word of pop, bit 3 of a LONG jump, every field of a reserved opcode. -/
theorem witness_UnusedFieldsAreIgnored_psh : AgreeWhereUsed 0x1D30 0 0x1FB0 0 := by decide
theorem witness_UnusedFieldsAreIgnored_neg : AgreeWhereUsed 0x9DA0 0 0x9DC7 0 := by decide
theorem witness_UnusedFieldsAreIgnored_pop : AgreeWhereUsed 0x21A0 0 0x21A0 7 := by decide
theorem witness_UnusedFieldsAreIgnored_jmp : AgreeWhereUsed 0xA924 0x10 0xA92C 0x10 := by decide
theorem witness_UnusedFieldsAreIgnored_reserved : AgreeWhereUsed 0xC400 0 0xC7FF 0 := by decide

/-- O10: both ends of the TEENY range. -/
theorem witness_TeenyAndLongFormsAgree : Opcode.add ≠ .jmp ∧ sext4 0x8#4 = imm16 0xFFF8#16 ∧
    sext4 0x7#4 = imm16 0x0007#16 := by decide

/-- O11. -/
theorem witness_BusyTickOnlyCountsDown : (State.reset.setDelay 1).delay ≠ 0 := by decide

/-- O12, O14: no delay pending, a TEENY and a LONG instruction at pc, the LONG one at the top of RAM. -/
theorem witness_TickRunsDecodedInstruction : (start 0 0x7FFF 0 0 flag0 0x05A5 0).delay = 0 ∧
    teenyField (start 0 0x7FFF 0 0 flag0 0x05A5 0).fetchWord1 = true ∧
    (start 0x7FFF 0x7FFF 0 0 flag0 0x01A0 0x1234).delay = 0 ∧
    teenyField (start 0x7FFF 0x7FFF 0 0 flag0 0x01A0 0x1234).fetchWord1 = false ∧
    (start 0x7FFF 0x7FFF 0 0 flag0 0x01A0 0x1234).fetchWord2 = 0x1234 := by decide

theorem witness_RegisterZeroForcedAfterInstruction : (start 0 0x7FFF 0 0 flag0 0x0525 0).delay = 0 := by decide

/-- O15: the reset state has the invariant and its next tick answers. -/
theorem witness_InvariantKeptByEveryTick : State.reset.inv = true ∧ ∃ t, step State.reset = .next t :=
  ⟨by decide, _, rfl⟩

/-- O17, every clause: RAM at 0x7FFF, the bus at 0x8000 and at 0xFFFF, DLY of 0, of 1 and of 65535, and neither. -/
theorem witness_DelayAccounting :
    (∃ t, exec (.lodLong .ra .rz 0 0x7FFF) State.reset = .next t ∧
      Instr.busAddress (.lodLong .ra .rz 0 0x7FFF) State.reset = some 0x7FFF) ∧
    (∃ t, exec (.strLong .rz .ra 0 (-0x8000)) State.reset = .next t ∧
      Instr.busAddress (.strLong .rz .ra 0 (-0x8000)) State.reset = some 0x8000) ∧
    (∃ t, exec (.lodLong .ra .rz 0 (-1)) State.reset = .next t ∧
      Instr.busAddress (.lodLong .ra .rz 0 (-1)) State.reset = some 0xFFFF) ∧
    (∃ t, exec (.dlyTeeny .rz .rz 0) State.reset = .next t ∧ (State.reset.opnd .rz 0).toNat = 0) ∧
    (∃ t, exec (.dlyTeeny .rz .rz 1) State.reset = .next t ∧ (State.reset.opnd .rz 1).toNat = 1) ∧
    (∃ t, exec (.dlyTeeny .rz .rz (-1)) State.reset = .next t ∧ (State.reset.opnd .rz (-1)).toNat = 65535) ∧
    (∃ t, exec (.rotTeeny .rz .rz 0) State.reset = .next t ∧
      Instr.busAddress (.rotTeeny .rz .rz 0) State.reset = none) :=
  ⟨⟨_, rfl, by decide⟩, ⟨_, rfl, by decide⟩, ⟨_, rfl, by decide⟩, ⟨_, rfl, by decide⟩, ⟨_, rfl, by decide⟩,
    ⟨_, rfl, by decide⟩, ⟨_, rfl, by decide⟩⟩

/-- O18: an executing tick and a busy one. -/
theorem witness_CyclesCountExecutingTicks : (∃ t, step State.reset = .next t) ∧ State.reset.delay = 0 ∧
    (∃ t, step (State.reset.setDelay 1) = .next t) ∧ (State.reset.setDelay 1).delay ≠ 0 :=
  ⟨⟨_, rfl⟩, rfl, ⟨_, rfl⟩, by decide⟩

/-- O19. -/
theorem witness_UntimedRunMatchesTimedRun : State.reset.delay = 0 ∧ ∃ t, untimedRun 2 State.reset = .next t :=
  ⟨rfl, _, rfl⟩

/-- O20: the jump to self in low RAM, and at the top of RAM with its target Word at address 0. -/
theorem witness_EndOfRunIsStable : (start 0x10 0x7FFF 0 0 flagL 0xA920 0x10).atEnd = true ∧
    (start 0x10 0x7FFF 0 0 flagL 0xA920 0x10).getReg .rz = 0 ∧
    (start 0x7FFF 0x7FFF 0 0 flag0 0xA920 0x7FFF).atEnd = true ∧
    (start 0x7FFF 0x7FFF 0 0 flag0 0xA920 0x7FFF).getReg .rz = 0 := by decide

/-- O22, O23, O24, O25: instructions that answer a next state, of each clause: a flag writer and none; STR into RAM
at 0x7FFF; PSH with sp 0, 0x7FFF and 0x8005; LOD and STR at 0x8000; a reserved opcode; none of them. -/
theorem witness_OnlyListedOpcodesWriteFlags : (∃ t, exec (.addTeeny .ra .rz 1) State.reset = .next t ∧
    t.flags = flagG) ∧ ∃ t, exec (.setTeeny .ra .rz 1) State.reset = .next t ∧ t.flags = State.reset.flags :=
  ⟨⟨_, rfl, by decide⟩, _, rfl, rfl⟩

theorem witness_OnlyStrPshCalChangeRam : (∃ t, exec (.strLong .rz .ra 0 0x7FFF) State.reset = .next t ∧
      (State.reset.regPlusImm .rz 0x7FFF).toNat < 0x8000) ∧
    (∃ t, exec (.pshTeeny .rz .ra 1) (start 0 0 0 0 flag0 0 0) = .next t) ∧
    (∃ t, exec (.calTeeny .rz .ra 1) (start 0 0x8005 0 0 flag0 0 0) = .next t) ∧
    ∃ t, exec (.popTeeny .ra .rz 0) State.reset = .next t :=
  ⟨⟨_, rfl, by decide⟩, ⟨_, rfl⟩, ⟨_, rfl⟩, _, rfl⟩

theorem witness_OutputEventsOnlyAsSpecified :
    (∃ t, exec (.lodLong .ra .rz 0 (-0x8000)) State.reset = .next t ∧
      Instr.busAddress (.lodLong .ra .rz 0 (-0x8000)) State.reset = some 0x8000) ∧
    (∃ t, exec (.strLong .rz .ra 0 (-1)) State.reset = .next t ∧
      Instr.busAddress (.strLong .rz .ra 0 (-1)) State.reset = some 0xFFFF) ∧
    (∃ t, exec (.lodLong .ra .rz 0 0x7FFF) State.reset = .next t ∧
      Instr.busAddress (.lodLong .ra .rz 0 0x7FFF) State.reset = some 0x7FFF) ∧
    (∃ t, exec (.reserved24Teeny .ra .rz 0) State.reset = .next t) ∧
    ∃ t, exec (.rotTeeny .ra .rz 0) State.reset = .next t :=
  ⟨⟨_, rfl, by decide⟩, ⟨_, rfl, by decide⟩, ⟨_, rfl, by decide⟩, ⟨_, rfl⟩, _, rfl⟩

theorem witness_RegistersWrittenOnlyAsTabulated : (∃ t, exec (.djzTeeny .ra .rb 1) State.reset = .next t ∧
      Instr.mayWrite (.djzTeeny .ra .rb 1) = [.ra, .pc]) ∧
    ∃ t, exec (.cmpTeeny .ra .rb 1) State.reset = .next t ∧ Instr.mayWrite (.cmpTeeny .ra .rb 1) = [] :=
  ⟨⟨_, rfl, rfl⟩, _, rfl, rfl⟩

/-- O27 to O30: the last RAM address, and the first and last bus addresses. -/
theorem witness_LodReadsRam : (State.reset.opnd .rz 0).toNat < 0x8000 ∧ (State.reset.opnd .sp 0).toNat = 0x7FFF := by
  decide
theorem witness_LodReadsBus : (State.reset.opnd .sp 1).toNat = 0x8000 ∧ (State.reset.opnd .rz (-1)).toNat = 0xFFFF := by
  decide
theorem witness_StrWritesRam : Memory.wf (oneWord 0x7FFF 0x1234).mem = true ∧
    ((oneWord 0x7FFF 0x1234).regPlusImm .sp 0).toNat = 0x7FFF ∧
    ((oneWord 0x7FFF 0x1234).regPlusImm .rz 0).toNat < 0x8000 := by decide
theorem witness_StrWritesBus : 0x8000 ≤ (State.reset.regPlusImm .sp 1).toNat ∧
    0x8000 ≤ (State.reset.regPlusImm .rz (-1)).toNat := by decide

/-- O31, O33, O50: a RAM in canonical form that is not empty. -/
theorem witness_PshStoresThenDecrements : Memory.wf (oneWord 0x7FFF 0x1200).mem = true ∧
    (oneWord 0x7FFF 0x1200).mem = [(0xFFFF, 0x12)] := by decide
theorem witness_CalPushesPcAndJumps : Memory.wf (oneWord 0 0x00A5).mem = true ∧
    (oneWord 0 0x00A5).mem = [(0, 0xA5)] := by decide
theorem witness_CallThenReturnRestoresPc : Memory.wf (oneWord 0x7FFE 0x0105).mem = true := by decide

/-- O34: the indices 0 and 15 in range; 16 and 0xFFFF out of it. -/
theorem witness_BitOpsChangeOneBitOfReg2 : (State.reset.opnd .rz 0).toNat ≤ 15 ∧ (State.reset.opnd .rz 15).toNat = 15 ∧
    (State.reset.opnd .rz 16).toNat = 16 ∧ 15 < (State.reset.opnd .rz (-1)).toNat := by decide

/-- O37, O38: divisors 1 and -1; a divisor 0, and one that wraps to 0. -/
theorem witness_DivModBySignedTruncation : State.reset.opnd .rz 1 ≠ 0#16 ∧ State.reset.opnd .rz (-1) ≠ 0#16 := by
  decide
theorem witness_DivModByZeroSkipped : ((State.reset.getReg .rz).toNat + (0 : Int)) % 65536 = 0 ∧
    (((start 0 0x7FFF 0 0xFFFF flag0 0 0).getReg .rb).toNat + (1 : Int)) % 65536 = 0 := by decide

/-- O39: the clauses of the shift at -16, -15, -1, 0, 15 and 16. -/
theorem witness_ShfShiftsBySignedAmount : (State.reset.opnd .rz (-16)).toInt = -16 ∧
    (State.reset.opnd .rz (-15)).toInt = -15 ∧ (State.reset.opnd .rz (-1)).toInt = -1 ∧
    (State.reset.opnd .rz 0).toInt = 0 ∧ (State.reset.opnd .rz 15).toInt = 15 ∧
    (State.reset.opnd .rz 16).toInt = 16 := by decide

/-- O44: a counter of 1 and counters of 0 and 2. -/
theorem witness_DjzDecrementsAndJumpsAtZero : (start 0 0x7FFF 1 0 flag0 0 0).getReg .ra = 1#16 ∧
    (start 0 0x7FFF 0 0 flag0 0 0).getReg .ra ≠ 1#16 ∧ (start 0 0x7FFF 2 0 flag0 0 0).getReg .ra ≠ 1#16 := by decide

/-- O47: a store and a load of one address by different registers, at 0x7FFF. -/
theorem witness_LoadReturnsLastStore : Memory.wf State.reset.mem = true ∧
    (State.reset.regPlusImm .sp 0).toNat < 0x8000 ∧
    State.reset.opnd .rz 0x7FFF = State.reset.regPlusImm .sp 0 := by decide

/-- O47, the ticks: psh ra at 0, an instruction that stores nothing at 1, and at 2 a pop or a lod of the Word pushed at
0x7FFF. -/
def pushThenLoad (load : Word) : State := (start 0 0x7FFF 0x42 0 flag0 0x1D30 0x95A1).ramWrite 2 load

theorem witness_LoadReturnsLastStore_ticks :
    ∀ p ∈ [((0x2620 : Word), Reg.rb), (0x0D91, .ra)],
      Memory.wf (pushThenLoad p.1).mem = true ∧ (pushThenLoad p.1).delay = 0 ∧
      (pushThenLoad p.1).fetch.2.ramStore (pushThenLoad p.1).fetch.1 = some (0x7FFF, 0x42) ∧
      ((nextOf (step (pushThenLoad p.1))).bind (ticksAvoiding 0x7FFF 1)).map
        (fun u => (u.delay, u.fetch.2.ramLoad u.fetch.1)) = some (0, some (0x7FFF, p.2)) := by decide

/-- O47: STR at 0x7FFF is a store to RAM and at 0x8000 none, CAL at sp 0x8000 is one to 0; a LOD above RAM is no load. -/
theorem witness_LoadReturnsLastStore_addresses :
    Instr.ramStore (.strTeeny .sp .ra 0) State.reset = some (0x7FFF, 0) ∧
    Instr.ramStore (.strTeeny .sp .ra 1) State.reset = none ∧
    Instr.ramStore (.calTeeny .rz .ra 0) (start 9 0x8000 0 0 flag0 0 0) = some (0, 9) ∧
    Instr.ramLoad (.lodTeeny .ra .sp 1) State.reset = none ∧
    Instr.ramLoad (.popTeeny .ra .rz 0) State.reset = some (0, .ra) := by decide

/-- O47, the last clause: two ticks that do not store to 0x7FFF. -/
theorem witness_LoadReturnsLastStore_initial : (ticksAvoiding 0x7FFF 2 (oneWord 0x7FFF 7)).isSome = true := by decide

/-- O48, every clause at the two Words of the next fetch: STR over the Word at pc and over the one after it, at pc
0x7FFF address 0; PSH with sp at pc and, above 0x7FFF, at the Word after it; CAL to its own return address' place, and
to the Word before it. -/
theorem witness_StoreIsSeenByNextFetch : Memory.wf (start 3 0x7FFF 0 0x05A7 flag0 0 0).mem = true ∧
    ((start 3 0x7FFF 0 0x05A7 flag0 0 0).regPlusImm .pc 0).toNat = (start 3 0x7FFF 0 0x05A7 flag0 0 0).fetchAddr ∧
    ((start 0x7FFF 0x7FFF 0 7 flag0 0x01A0 0).regPlusImm .rz 0).toNat =
      ((start 0x7FFF 0x7FFF 0 7 flag0 0x01A0 0).fetchAddr + 1) % 0x8000 ∧
    Memory.wf (start 0x7FFF 0x7FFF 0 7 flag0 0x01A0 0).mem = true ∧
    ((start 3 3 0 0 flag0 0 0).getReg .sp).toNat % 0x8000 = (start 3 3 0 0 flag0 0 0).fetchAddr ∧
    ((start 3 0x8004 0 0 flag0 0 0).getReg .sp).toNat % 0x8000 = (start 3 0x8004 0 0 flag0 0 0).fetchAddr + 1 := by
  decide
theorem witness_StoreIsSeenByNextFetch_cal :
    (nextOf (exec (.calLong .rz .rz 0 0x7FFF) State.reset)).map State.fetchAddr =
      some ((State.reset.getReg .sp).toNat % 0x8000) ∧
    (nextOf (exec (.calLong .rz .rz 0 0x7FFE) State.reset)).map (fun t => (t.fetchAddr + 1) % 0x8000) =
      some ((State.reset.getReg .sp).toNat % 0x8000) := by decide

/-- O49: three pushes and three pops that wrap around address 0. -/
theorem witness_StackSymmetry :
    [Reg.ra, .rb, .rz].length = [(Reg.pc, (1 : Int)), (.ra, 2), (.sp, 3)].length ∧
    [(Reg.pc, (1 : Int)), (.ra, 2), (.sp, 3)].length ≤ 0x8000 ∧ Reg.sp ∉ [Reg.ra, .rb, .rz] ∧
    ((start 0 1 0 0 flag0 0 0).getReg .sp).toNat < 0x8000 ∧
    Memory.wf (start 0 1 0 0 flag0 0 0).mem = true := by decide

/-- O51: R139's rows at the TEENY range's ends; a jump without and with a register. -/
theorem witness_AsmInstructionFieldsAndForm : lineInstr (.op .add) [.ra] false (-8) = .addTeeny .ra .rz (-8) ∧
    lineInstr (.op .add) [.ra, .rb] false 7 = .addTeeny .ra .rb 7 ∧
    lineInstr (.op .add) [] false 8 = .addLong .rz .rz 0 8 ∧
    lineInstr (.op .psh) [.ra] false (-9) = .pshLong .rz .ra 0 (-9) ∧
    lineInstr (.op .str) [.ra] true 5 = .strTeeny .rz .ra 5 ∧ lineInstr (.op .str) [.ra] false 0 = .strTeeny .ra .rz 0 ∧
    lineInstr (.jump 4) [] true 16 = .jmpLong .rz .rz false 4 16 ∧
    lineInstr (.jump 4) [.ra] true 16 = .jmpLong .ra .rz false 4 16 := by decide

/-- O54: a stable pass that defines a label and a variable. -/
theorem witness_AsmStablePassKeepsAddresses :
    (runPass [("v".toList, 0)] [("!x".toList, 1)] [.var "v".toList none false, .label "!x".toList]).unstable = false ∧
    (runPass [("v".toList, 0)] [("!x".toList, 1)] [.var "v".toList none false, .label "!x".toList]).tables.labels.lookup
      "!x".toList = some 1 ∧
    (runPass [("v".toList, 0)] [("!x".toList, 1)] [.var "v".toList none false, .label "!x".toList]).tables.vars.lookup
      "v".toList = some 0 := by decide

/-- O55: a stable pass with a line before the jump, which has a register and a minus sign, and the label after it; and
one with the label before the jump. -/
def passForward : PassState := runPass [] [("!end".toList, 3)]
  ([.raw [(false, "9".toList)]] ++ .instr (.jump 4) [.ra] (some "!end".toList) true true :: [.label "!end".toList])
def passBackward : PassState := runPass [] [("!end".toList, 0)]
  ([.label "!end".toList] ++ .instr (.jump 0) [] (some "!end".toList) false true :: [])

theorem witness_AsmForwardReferenceResolves :
    ([] : AddrTable).lookup "!end".toList = none ∧
    (Line.raw [(false, "9".toList)]).valueName ≠ some "!end".toList ∧
    passForward.unstable = false ∧ passForward.tables.labels.lookup "!end".toList = some 3 ∧
    passForward.out = [9, 0xA9A4, 0xFFFD] ∧
    (Line.label "!end".toList).valueName ≠ some "!end".toList ∧
    passBackward.unstable = false ∧ passBackward.tables.labels.lookup "!end".toList = some 0 ∧
    passBackward.out = [0xA920, 0] := by decide

end Sys2Proof.Tests
end

/-! Loading and resetting (10_state.md R26, 70_reset_and_hazards.md R176, R177): what RAM holds after an image is
stored, and the state both leave. -/

namespace Sys2Proof.Machine

/-! ## RAM after a sequence of Words is stored -/

/-- Each Word of a sequence stored inside RAM is read back at its own address. -/
theorem Memory.readWord_storeWords_inside {m : Memory} (hm : Memory.wf m = true) {a : Nat} {ws : List Word}
    (hfit : a + ws.length ≤ Config.ramSize) {i : Nat} (hi : i < ws.length) :
    Memory.readWord (Memory.storeWords m a ws) (a + i) = ws[i] := by
  induction ws generalizing m a i with
  | nil => exact absurd hi (Nat.not_lt_zero i)
  | cons w ws ih =>
    simp only [List.length_cons] at hfit hi
    have ha : a < Config.ramSize := by omega
    cases i with
    | zero =>
      -- the later Words go above `a`, so the first one stands as it was written
      calc Memory.readWord (Memory.storeWords (Memory.writeWord m a w) (a + 1) ws) (a + 0)
          = Memory.readWord (Memory.writeWord m a w) a := Memory.readWord_storeWords_outside (by omega)
        _ = w := Memory.readWord_writeWord_same hm ha w
    | succ j =>
      have hj := ih (Memory.wf_writeWord hm ha w) (a := a + 1) (i := j) (by omega) (by omega)
      rwa [Nat.add_right_comm] at hj

/-- RAM made of an image holds Word `a` of the image at address `a` (R176). -/
theorem Memory.readWord_ofImage {image : List Word} (hfit : image.length ≤ Config.ramSize) {a : Nat}
    (ha : a < image.length) : Memory.readWord (Memory.ofImage image) a = image[a] := by
  have h := Memory.readWord_storeWords_inside (m := []) rfl (a := 0) (by omega) ha
  rwa [Nat.zero_add] at h

/-- RAM made of an image is zero beyond the image (R17, R176). -/
theorem Memory.readWord_ofImage_beyond {image : List Word} {a : Nat} (ha : image.length ≤ a) :
    Memory.readWord (Memory.ofImage image) a = 0#16 :=
  calc Memory.readWord (Memory.ofImage image) a
      = Memory.readWord [] a := Memory.readWord_storeWords_outside (by omega)
    _ = 0#16 := Memory.readWord_nil a

/-! ## The state after a load or a reset -/

@[simp] theorem State.resetState_getReg (s : State) (image : List Word) (q : Reg) :
    (s.resetState image).getReg q = State.reset.getReg q := rfl
@[simp] theorem State.resetState_mem (s : State) (image : List Word) :
    (s.resetState image).mem = Memory.ofImage image := rfl

/-- Every register but sp is 0 at reset (10_state.md R26). -/
theorem State.reset_getReg_of_ne_sp {r : Reg} (h : r ≠ .sp) : State.reset.getReg r = 0#16 := by
  cases r with
  | sp => exact absurd rfl h
  | pc | rz | ra | rb | rc | rd | re => rfl

/-- `resetState` gives the table of 10_state.md R26, whatever the state was before. -/
theorem State.isResetState_resetState (s : State) {image : List Word} (hfit : image.length ≤ Config.ramSize) :
    IsResetState (s.resetState image) image := by
  refine ⟨rfl, rfl, ?otherRegs, rfl, rfl, rfl, ?image, ?beyond⟩
  case otherRegs =>
    intro r hr
    rw [State.resetState_getReg, State.reset_getReg_of_ne_sp hr]
  case image =>
    intro a ha
    rw [State.resetState_mem, Memory.readWord_ofImage hfit ha]
  case beyond =>
    intro a ha _
    rw [State.resetState_mem, Memory.readWord_ofImage_beyond ha]

/-- An image that fits RAM loads into any engine, which retains it, and its state is a `resetState` (R176). -/
theorem Launch.load_of_fits (before : Option Launch) {image : List Word} (hfit : image.length ≤ Config.ramSize) :
    ∃ s : State, Launch.load before image = .ok ⟨image, s.resetState image⟩ := by
  cases before with
  | none => exact ⟨State.reset, if_pos hfit⟩
  | some l => exact ⟨l.state, if_pos hfit⟩

/-- Settles O1: a load and a later reset both end in `resetState` of the retained image (decision D25), which gives
R26's table whatever state it starts from. -/
theorem loadAndResetGiveResetState : Obligations.LoadAndResetGiveResetState := by
  intro before image hfit
  obtain ⟨s, hload⟩ := Launch.load_of_fits before hfit
  exact ⟨_, hload, s.isResetState_resetState hfit, fun t => t.isResetState_resetState hfit⟩

end Sys2Proof.Machine

/-! Loads and stores over ticks (20_memory.md section 4) and the pending-delay counter (40_fetch_decode_execute_cycle.md
R79): what every instruction does to RAM, to the delay, and to the state it must not touch. -/

namespace Sys2Proof

/-- The opcodes that access RAM, the bus or the stack, or set the pending-delay counter. -/
def Opcode.touchesRamOrDelay : Opcode → Bool
  | .lod | .str | .psh | .pop | .cal | .dly => true
  | _ => false

end Sys2Proof

namespace Sys2Proof.Machine

/-! ## The six opcodes that touch RAM, the stack or the delay counter: their meaning from the fields of the words -/

theorem exec_lod {i : Instr} (h : i.fields.opcode = .lod) (s : State) :
    exec i s = opLod i.fields.reg1 i.fields.reg2 i.fields.imm s := by
  cases i with
  | lodTeeny | lodLong => rfl
  | _ => cases h

theorem exec_str {i : Instr} (h : i.fields.opcode = .str) (s : State) :
    exec i s = opStr i.fields.reg1 i.fields.reg2 i.fields.imm s := by
  cases i with
  | strTeeny | strLong => rfl
  | _ => cases h

theorem exec_psh {i : Instr} (h : i.fields.opcode = .psh) (s : State) :
    exec i s = opPsh i.fields.reg2 i.fields.imm s := by
  cases i with
  | pshTeeny | pshLong => rfl
  | _ => cases h

theorem exec_pop {i : Instr} (h : i.fields.opcode = .pop) (s : State) : exec i s = opPop i.fields.reg1 s := by
  cases i with
  | popTeeny | popLong => rfl
  | _ => cases h

theorem exec_cal {i : Instr} (h : i.fields.opcode = .cal) (s : State) :
    exec i s = opCal i.fields.reg2 i.fields.imm s := by
  cases i with
  | calTeeny | calLong => rfl
  | _ => cases h

theorem exec_dly {i : Instr} (h : i.fields.opcode = .dly) (s : State) :
    exec i s = opDly i.fields.reg2 i.fields.imm s := by
  cases i with
  | dlyTeeny | dlyLong => rfl
  | _ => cases h

/-! ## The other opcodes change registers, flags and outputs only -/

/-- The answer is a next state with the RAM, the pending delay, the IR and the cycle counter of `s`. -/
def LeavesRamAndDelay (s : State) (r : Result) : Prop :=
  ∃ t, r = .next t ∧ t.mem = s.mem ∧ t.delay = s.delay ∧ SameHidden s t

theorem opSet_leavesRamAndDelay (a b : Reg) (v : Int) (s : State) : LeavesRamAndDelay s (opSet a b v s) :=
  ⟨_, rfl, rfl, rfl, rfl, rfl⟩

theorem opArith_leavesRamAndDelay (f : Word → Word → Word) (a b : Reg) (v : Int) (s : State) :
    LeavesRamAndDelay s (opArith f a b v s) := ⟨_, rfl, rfl, rfl, rfl, rfl⟩

theorem opDivide_leavesRamAndDelay (f : Word → Word → Word) (a b : Reg) (v : Int) (s : State) :
    LeavesRamAndDelay s (opDivide f a b v s) := by
  by_cases hz : s.opnd b v = 0#16
  · rw [opDivide_zero f a b v s hz]
    exact ⟨s, rfl, rfl, rfl, rfl, rfl⟩
  · rw [opDivide_nonzero f a b v s hz]
    exact opArith_leavesRamAndDelay f a b v s

theorem opBit_leavesRamAndDelay (f : Word → Nat → Word) (b : Reg) (v : Int) (s : State) :
    LeavesRamAndDelay s (opBit f b v s) := by
  rcases Nat.lt_or_ge 15 (s.opnd b v).toNat with hout | hin
  · rw [opBit_outOfRange f b v s hout]
    exact ⟨s, rfl, rfl, rfl, rfl, rfl⟩
  · rw [opBit_inRange f b v s hin]
    exact ⟨_, rfl, rfl, rfl, rfl, rfl⟩

theorem opShf_leavesRamAndDelay (a b : Reg) (v : Int) (s : State) : LeavesRamAndDelay s (opShf a b v s) :=
  ⟨_, rfl, rfl, rfl, rfl, rfl⟩

theorem opNeg_leavesRamAndDelay (a : Reg) (s : State) : LeavesRamAndDelay s (opNeg a s) :=
  ⟨_, rfl, rfl, rfl, rfl, rfl⟩

theorem opCmp_leavesRamAndDelay (a b : Reg) (v : Int) (s : State) : LeavesRamAndDelay s (opCmp a b v s) :=
  ⟨_, rfl, rfl, rfl, rfl, rfl⟩

theorem opJmp_leavesRamAndDelay (a : Reg) (c : BitVec 3) (v : Int) (s : State) :
    LeavesRamAndDelay s (opJmp a c v s) := by
  cases hc : condTaken c s.flags with
  | true => rw [opJmp_taken a c v s hc]; exact ⟨_, rfl, rfl, rfl, rfl, rfl⟩
  | false => rw [opJmp_notTaken a c v s hc]; exact ⟨s, rfl, rfl, rfl, rfl, rfl⟩

theorem opDjz_leavesRamAndDelay (a b : Reg) (v : Int) (s : State) : LeavesRamAndDelay s (opDjz a b v s) := by
  refine ⟨_, rfl, ?_⟩
  split
  · exact ⟨rfl, rfl, rfl, rfl⟩
  · exact ⟨rfl, rfl, rfl, rfl⟩

theorem opReserved_leavesRamAndDelay (code : BitVec 5) (s : State) : LeavesRamAndDelay s (opReserved code s) :=
  ⟨_, rfl, rfl, rfl, rfl, rfl⟩

theorem exec_leavesRamAndDelay {i : Instr} (h : i.fields.opcode.touchesRamOrDelay = false) (s : State) :
    LeavesRamAndDelay s (exec i s) := by
  cases i with
  | lodTeeny | lodLong | strTeeny | strLong | pshTeeny | pshLong | popTeeny | popLong | calTeeny | calLong
  | dlyTeeny | dlyLong => cases h
  | setTeeny | setLong => exact opSet_leavesRamAndDelay _ _ _ s
  | btsTeeny | btsLong | btcTeeny | btcLong | btfTeeny | btfLong => exact opBit_leavesRamAndDelay _ _ _ s
  | addTeeny | addLong | subTeeny | subLong | mpyTeeny | mpyLong | andTeeny | andLong | orTeeny | orLong
  | xorTeeny | xorLong => exact opArith_leavesRamAndDelay _ _ _ _ s
  | divTeeny | divLong | modTeeny | modLong => exact opDivide_leavesRamAndDelay _ _ _ _ s
  | shfTeeny | shfLong => exact opShf_leavesRamAndDelay _ _ _ s
  | rotTeeny | rotLong => exact ⟨s, rfl, rfl, rfl, rfl, rfl⟩
  | negTeeny | negLong => exact opNeg_leavesRamAndDelay _ s
  | cmpTeeny | cmpLong => exact opCmp_leavesRamAndDelay _ _ _ s
  | jmpTeeny | jmpLong => exact opJmp_leavesRamAndDelay _ _ _ s
  | djzTeeny | djzLong => exact opDjz_leavesRamAndDelay _ _ _ s
  | reserved24Teeny | reserved24Long | reserved25Teeny | reserved25Long | reserved26Teeny | reserved26Long
  | reserved27Teeny | reserved27Long | reserved28Teeny | reserved28Long | reserved29Teeny | reserved29Long
  | reserved30Teeny | reserved30Long | reserved31Teeny | reserved31Long =>
    exact opReserved_leavesRamAndDelay _ s

/-! ## Every instruction: its store to RAM, and nothing else of RAM -/

/-- RAM after the store, if there is one, that `Instr.ramStore` names. -/
def Memory.afterStore (m : Memory) : Option (Nat × Word) → Memory
  | some (addr, w) => Memory.writeWord m addr w
  | none => m

@[simp] theorem Memory.afterStore_none (m : Memory) : m.afterStore none = m := rfl
@[simp] theorem Memory.afterStore_some (m : Memory) (addr : Nat) (w : Word) :
    m.afterStore (some (addr, w)) = Memory.writeWord m addr w := rfl

theorem ramAddr_of_lt {a : Word} (h : a.toNat < 0x8000) : ramAddr a = some a.toNat := if_pos h
theorem ramAddr_of_ge {a : Word} (h : 0x8000 ≤ a.toNat) : ramAddr a = none := if_neg (Nat.not_lt.2 h)

theorem ramAddr_eq_some {a : Word} {k : Nat} (h : ramAddr a = some k) : a.toNat = k ∧ k < 0x8000 := by
  rcases Nat.lt_or_ge a.toNat 0x8000 with hram | hbus
  · rw [ramAddr_of_lt hram] at h
    injection h with h
    exact ⟨h, h ▸ hram⟩
  · rw [ramAddr_of_ge hbus] at h
    cases h

/-- An instruction stores to an address of RAM. -/
theorem ramStore_addr_lt {i : Instr} {s : State} {addr : Nat} {w : Word} (h : i.ramStore s = some (addr, w)) :
    addr < Config.ramSize := by
  cases hop : i.fields.opcode with
  | str =>
    simp only [Instr.ramStore, hop, Option.map_eq_some_iff, Prod.mk.injEq] at h
    obtain ⟨k, hk, rfl, -⟩ := h
    exact (ramAddr_eq_some hk).2
  | psh | cal =>
    simp only [Instr.ramStore, hop, Option.some.injEq, Prod.mk.injEq] at h
    obtain ⟨rfl, -⟩ := h
    exact Nat.mod_lt _ (by decide)
  | _ => simp [Instr.ramStore, hop] at h

@[simp] theorem State.memRead_mem (s : State) (a : Word) : (s.memRead a).state.mem = s.mem := by
  rw [State.memRead_state]
@[simp] theorem State.memRead_ir (s : State) (a : Word) : (s.memRead a).state.ir = s.ir := by
  rw [State.memRead_state]
@[simp] theorem State.memRead_cycles (s : State) (a : Word) : (s.memRead a).state.cycles = s.cycles := by
  rw [State.memRead_state]

@[simp] theorem State.memWrite_mem (s : State) (a v : Word) :
    (s.memWrite a v).state.mem = s.mem.afterStore ((ramAddr a).map (·, v)) := by
  rcases Nat.lt_or_ge a.toNat 0x8000 with hram | hbus
  · rw [s.memWrite_ram ((inRam_iff a).2 hram), ramAddr_of_lt hram]; rfl
  · rw [s.memWrite_bus (Bool.eq_false_iff.2 fun hin => Nat.not_lt.2 hbus ((inRam_iff a).1 hin)), ramAddr_of_ge hbus]
    rfl
@[simp] theorem State.memWrite_ir (s : State) (a v : Word) : (s.memWrite a v).state.ir = s.ir := by
  rw [State.memWrite_state]
@[simp] theorem State.memWrite_cycles (s : State) (a v : Word) : (s.memWrite a v).state.cycles = s.cycles := by
  rw [State.memWrite_state]

/-- Every instruction answers a next state; of RAM it changes the Word `ramStore` names, and it never changes the IR
or the cycle counter. -/
theorem exec_mem (i : Instr) (s : State) :
    ∃ t, exec i s = .next t ∧ t.mem = s.mem.afterStore (i.ramStore s) ∧ SameHidden s t := by
  cases hop : i.fields.opcode with
  | lod =>
    rw [exec_lod hop]
    exact ⟨_, rfl, by simp [Instr.ramStore, hop], by simp [SameHidden]⟩
  | str =>
    rw [exec_str hop]
    exact ⟨_, rfl, by simp [Instr.ramStore, hop], by simp [SameHidden]⟩
  | psh =>
    rw [exec_psh hop]
    exact ⟨_, rfl, by simp [Instr.ramStore, hop, toNat_mask15], rfl, rfl⟩
  | pop =>
    rw [exec_pop hop]
    exact ⟨_, rfl, by simp [Instr.ramStore, hop], rfl, rfl⟩
  | cal =>
    rw [exec_cal hop]
    exact ⟨_, rfl, by simp [Instr.ramStore, hop, toNat_mask15], rfl, rfl⟩
  | dly =>
    rw [exec_dly hop]
    refine ⟨_, rfl, ?_⟩
    split
    · exact ⟨by simp [Instr.ramStore, hop], rfl, rfl⟩
    · exact ⟨by simp [Instr.ramStore, hop], rfl, rfl⟩
  | _ =>
    obtain ⟨t, ht, hmem, -, hhidden⟩ := exec_leavesRamAndDelay (by rw [hop]; rfl) s
    exact ⟨t, ht, by simp [Instr.ramStore, hop, hmem], hhidden⟩

/-- A load answers a next state whose destination register holds the Word of RAM at the address `ramLoad` names. -/
theorem exec_ramLoad {i : Instr} {s : State} {addr : Nat} {d : Reg} (h : i.ramLoad s = some (addr, d)) :
    ∃ t, exec i s = .next t ∧ t.getReg d = Memory.readWord s.mem addr := by
  cases hop : i.fields.opcode with
  | lod =>
    simp only [Instr.ramLoad, hop, Option.map_eq_some_iff, Prod.mk.injEq] at h
    obtain ⟨k, hk, rfl, rfl⟩ := h
    obtain ⟨rfl, hlt⟩ := ramAddr_eq_some hk
    rw [exec_lod hop, opLod_ram _ _ _ _ ((inRam_iff _).2 hlt)]
    exact ⟨_, rfl, by simp [State.ramRead]⟩
  | pop =>
    simp only [Instr.ramLoad, hop, Option.some.injEq, Prod.mk.injEq] at h
    obtain ⟨rfl, rfl⟩ := h
    rw [exec_pop hop]
    exact ⟨_, rfl, by simp [State.ramRead, toNat_popAddr]⟩
  | _ => simp [Instr.ramLoad, hop] at h

/-! ## The pending delay of each opcode -/

theorem busAddress_lod {i : Instr} (h : i.fields.opcode = .lod) (s : State) :
    i.busAddress s = some (s.opnd i.fields.reg2 i.fields.imm) := by
  simp only [Instr.busAddress, h, State.opnd]

theorem busAddress_str {i : Instr} (h : i.fields.opcode = .str) (s : State) :
    i.busAddress s = some (s.regPlusImm i.fields.reg1 i.fields.imm) := by
  simp only [Instr.busAddress, h]

theorem busAddress_eq_none {i : Instr} (hlod : i.fields.opcode ≠ .lod) (hstr : i.fields.opcode ≠ .str)
    (s : State) : i.busAddress s = none := by
  unfold Instr.busAddress
  split
  · contradiction
  · contradiction
  · rfl

/-- Only LOD, STR and DLY touch the pending-delay counter (decision D11). -/
theorem exec_delay_unchanged {i : Instr} (hlod : i.fields.opcode ≠ .lod) (hstr : i.fields.opcode ≠ .str)
    (hdly : i.fields.opcode ≠ .dly) {s t : State} (h : exec i s = .next t) : t.delay = s.delay := by
  cases hop : i.fields.opcode with
  | lod | str | dly => contradiction
  | psh => rw [exec_psh hop] at h; cases h; rfl
  | pop => rw [exec_pop hop] at h; cases h; rfl
  | cal => rw [exec_cal hop] at h; cases h; rfl
  | _ =>
    obtain ⟨u, hu, -, hdelay, -⟩ := exec_leavesRamAndDelay (by rw [hop]; rfl) s
    cases hu.symm.trans h
    exact hdelay

/-- Settles O17: a LOD or STR on either side of 0x8000 and a DLY on either side of count 1 charge as their meanings
say, and every other opcode leaves the counter. -/
theorem delayAccounting : Obligations.DelayAccounting := by
  intro i s t h
  cases hop : i.fields.opcode with
  | lod =>
    rw [exec_lod hop] at h
    simp only [busAddress_lod hop, if_true]
    rcases opLod_cases h with ⟨hram, rfl⟩ | ⟨hbus, rfl⟩
    · rw [if_pos hram]; rfl
    · rw [if_neg (Nat.not_lt.2 hbus)]
      exact ⟨(Nat.add_assoc _ _ _).symm, _, rfl⟩
  | str =>
    rw [exec_str hop] at h
    simp only [busAddress_str hop]
    rcases opStr_cases h with ⟨hram, rfl⟩ | ⟨hbus, rfl⟩
    · rw [if_pos hram]; rfl
    · rw [if_neg (Nat.not_lt.2 hbus)]
      exact ⟨(Nat.add_assoc _ _ _).symm, rfl⟩
  | dly =>
    rw [exec_dly hop] at h
    simp only [busAddress_eq_none (i := i) (by simp [hop]) (by simp [hop]), true_and]
    rcases opDly_cases h with ⟨hzero, rfl⟩ | ⟨hpos, rfl⟩
    · rw [if_neg (by omega)]
    · rw [if_pos hpos]
      exact Nat.sub_add_cancel hpos
  | _ =>
    have hdelay := exec_delay_unchanged (by simp [hop]) (by simp [hop]) (by simp [hop]) h
    simpa [busAddress_eq_none (i := i) (by simp [hop]) (by simp [hop])] using hdelay

end Sys2Proof.Machine

/-! Loads after stores, and stores that the next fetch reads (20_memory.md R41, R45). -/

namespace Sys2Proof.Machine

/-! ## The fetch, read off the two Words at pc -/

theorem State.fetch_mem (s : State) : s.fetch.1.mem = s.mem := by rw [State.fetch_eq]

theorem State.ramRead_pc (s : State) : s.ramRead (mask15 (s.getReg .pc)) = s.fetchWord1 := by
  rw [State.ramRead, toNat_mask15]; rfl

theorem State.ramRead_after_pc (s : State) :
    s.ramRead (mask15 (mask15 (s.getReg .pc) + 1#16)) = s.fetchWord2 := by
  rw [State.ramRead, toNat_popAddr, toNat_mask15]; rfl

theorem State.fetch_ir (s : State) : s.fetch.1.ir = s.fetchWord1 := by
  rw [State.fetch_eq, ← State.ramRead_pc]

theorem State.fetch_instr (s : State) : s.fetch.2 = decodeWords s.fetchWord1 s.fetchWord2 := by
  rw [State.fetch_eq, ← State.ramRead_pc, ← State.ramRead_after_pc]

/-! ## One tick -/

theorem step_busy {s : State} (h : s.delay ≠ 0) : step s = .next s.busyTick := if_neg h

/-- An executing tick ends with what the fetched instruction answers (R75). -/
theorem step_of_exec {s t : State} (hdelay : s.delay = 0) (h : exec s.fetch.2 s.fetch.1 = .next t) :
    step s = .next t.retire := by
  rw [step, if_pos hdelay, h, finishTick]

/-- An executing tick succeeds, does to RAM what the fetched instruction stores, and leaves its first Word in IR. -/
theorem step_executing {s : State} (hdelay : s.delay = 0) :
    ∃ t, step s = .next t ∧ t.mem = s.mem.afterStore (s.fetch.2.ramStore s.fetch.1) ∧ t.ir = s.fetchWord1 := by
  obtain ⟨t, ht, hmem, hir, -⟩ := exec_mem s.fetch.2 s.fetch.1
  refine ⟨t.retire, step_of_exec hdelay ht, ?_, ?_⟩
  · rw [State.retire_mem, hmem, State.fetch_mem]
  · rw [State.retire_ir, hir, State.fetch_ir]

/-- A tick that does not store to `addr` leaves the Word there. -/
theorem step_readWord_of_not_stores {s t : State} {addr : Nat} (hno : s.tickStoresTo addr = false)
    (h : step s = .next t) : Memory.readWord t.mem addr = Memory.readWord s.mem addr := by
  by_cases hdelay : s.delay = 0
  · obtain ⟨u, hu, hmem, -⟩ := step_executing hdelay
    cases hu.symm.trans h
    rw [hmem]
    cases hstore : s.fetch.2.ramStore s.fetch.1 with
    | none => rfl
    | some p =>
      obtain ⟨a, w⟩ := p
      have hne : addr ≠ a := by
        rintro rfl
        simp [State.tickStoresTo, hdelay, hstore] at hno
      exact Memory.readWord_writeWord_ne _ w hne
  · rw [step_busy hdelay] at h
    cases h
    rfl

/-! ## Many ticks -/

/-- Ticks none of which stores to `addr` leave the Word there. -/
theorem ticksAvoiding_readWord {addr n : Nat} {s u : State} (h : ticksAvoiding addr n s = some u) :
    Memory.readWord u.mem addr = Memory.readWord s.mem addr := by
  induction n generalizing s with
  | zero => cases h; rfl
  | succ n ih =>
    simp only [ticksAvoiding] at h
    split at h
    · cases h
    next hno =>
      obtain ⟨t, ht, hrest⟩ := Option.bind_eq_some_iff.1 h
      have hstep : step s = .next t := by
        cases hs : step s with
        | next t' => rw [hs] at ht; cases ht; rfl
        | fault r => rw [hs] at ht; cases ht
        | refused r => rw [hs] at ht; cases ht
      rw [ih hrest, step_readWord_of_not_stores (Bool.eq_false_iff.2 hno) hstep]

theorem run_succ_of_step (M : Host.Core) {s t : M.State} (h : M.step s = .next t) (n : Nat) :
    M.run (n + 1) s = M.run n t := by
  rw [Host.Core.run, h]

theorem core_run_succ {s t : State} (h : step s = .next t) (n : Nat) :
    Sys2Proof.core.run (n + 1) s = Sys2Proof.core.run n t :=
  run_succ_of_step Sys2Proof.core h n

/-- The pending delay elapses in busy ticks, which change nothing else. -/
theorem core_run_delay {d : Nat} {s : State} (h : s.delay = d) :
    Sys2Proof.core.run d s = .next (s.setDelay 0) := by
  induction d generalizing s with
  | zero =>
    have hsame : s.setDelay 0 = s := by rw [← h]; rfl
    rw [hsame]; rfl
  | succ d ih =>
    rw [core_run_succ (step_busy (by omega)) d]
    exact ih (by rw [State.busyTick_delay, h, Nat.add_sub_cancel])

/-! ## A load returns the last store -/

/-- STR to RAM, and LOD of the same address straight after it: both succeed, and the LOD's register holds the Word. -/
theorem opLod_after_opStr {s : State} (hwf : Memory.wf s.mem = true) {a b c d : Reg} {v u : Int}
    (hram : (s.regPlusImm a v).toNat < 0x8000) (haddr : s.opnd c u = s.regPlusImm a v) :
    ∃ t t', opStr a b v s = .next t ∧ opLod d c u t = .next t' ∧ t'.getReg d = s.getReg b := by
  have hin : inRam (s.regPlusImm a v) = true := (inRam_iff _).2 hram
  refine ⟨_, _, opStr_ram a b v s hin, opLod_ram d c u _ (haddr ▸ hin), ?_⟩
  rw [State.addDelay_getReg, State.setReg_getReg, if_pos rfl]
  -- the store moved no register, so the load forms the same address
  show Memory.readWord (Memory.writeWord s.mem _ _) (s.opnd c u).toNat = s.getReg b
  rw [haddr, Memory.readWord_writeWord_same hwf hram]

/-- An executing tick whose instruction loads from `addr` leaves the Word there in the destination register, unless
that is register-zero, which it forces to 0. -/
theorem step_ramLoad {s : State} {addr : Nat} {d : Reg} (hdelay : s.delay = 0)
    (h : s.fetch.2.ramLoad s.fetch.1 = some (addr, d)) :
    ∃ t, step s = .next t ∧ t.getReg d = if d = .rz then 0#16 else Memory.readWord s.mem addr := by
  obtain ⟨t, ht, hd⟩ := exec_ramLoad h
  refine ⟨t.retire, step_of_exec hdelay ht, ?_⟩
  rw [State.retire_getReg, hd, State.fetch_mem]

/-- An executing tick whose instruction stores `w` to `addr` leaves `w` there. -/
theorem step_ramStore {s : State} {addr : Nat} {w : Word} (hwf : Memory.wf s.mem = true) (hdelay : s.delay = 0)
    (h : s.fetch.2.ramStore s.fetch.1 = some (addr, w)) :
    ∃ t, step s = .next t ∧ Memory.readWord t.mem addr = w := by
  obtain ⟨t, ht, hmem, -⟩ := step_executing hdelay
  refine ⟨t, ht, ?_⟩
  rw [hmem, h, Memory.afterStore_some, Memory.readWord_writeWord_same hwf (ramStore_addr_lt h)]

/-- Settles O47: a store leaves its Word at the address, ticks that do not store there keep it, and a load reads
it. -/
theorem loadReturnsLastStore : Obligations.LoadReturnsLastStore := by
  refine ⟨?strThenLod, ?storeThenLoad, fun s u addr n h => ticksAvoiding_readWord h⟩
  case strThenLod =>
    intro s a b c d l m v u hwf hram haddr i hi j hj
    obtain ⟨t, t', hstr, hlod, hword⟩ := opLod_after_opStr (b := b) (d := d) hwf hram haddr
    refine ⟨t, t', ?_, ?_, hword⟩
    · rw [← hstr]
      simp only [List.mem_cons, List.not_mem_nil, or_false] at hi
      rcases hi with rfl | rfl <;> rfl
    · rw [← hlod]
      simp only [List.mem_cons, List.not_mem_nil, or_false] at hj
      rcases hj with rfl | rfl <;> rfl
  case storeThenLoad =>
    intro s addr w hwf hdelay hstore
    obtain ⟨t, ht, hword⟩ := step_ramStore hwf hdelay hstore
    refine ⟨t, ht, fun n u d hticks hready hload => ?_⟩
    obtain ⟨t', ht', hd⟩ := step_ramLoad hready hload
    refine ⟨t', ht', ?_⟩
    rw [hd, ticksAvoiding_readWord hticks, hword]

/-! ## The next fetch sees a store -/

theorem Memory.readWord_writeWord {m : Memory} (hm : Memory.wf m = true) {addr : Nat} (haddr : addr < Config.ramSize)
    (v : Word) (a : Nat) :
    Memory.readWord (Memory.writeWord m addr v) a = if a = addr then v else Memory.readWord m a := by
  split
  next heq => rw [heq, Memory.readWord_writeWord_same hm haddr]
  next hne => exact Memory.readWord_writeWord_ne m v hne

/-- Whatever has stored `v` at `addr`, the next fetch reads RAM after that store, once the delay has elapsed. -/
theorem fetchSeesStore_of_writeWord {s t : State} (hwf : Memory.wf s.mem = true) {addr : Nat}
    (haddr : addr < Config.ramSize) {v : Word} (hmem : t.mem = Memory.writeWord s.mem addr v) :
    FetchSeesStore s t addr v := by
  refine ⟨?word1, ?word2, t.setDelay 0, core_run_delay rfl, rfl, State.fetch_instr _, ?tick⟩
  case word1 => rw [State.fetchWord1, hmem, Memory.readWord_writeWord hwf haddr]
  case word2 => rw [State.fetchWord2, hmem, Memory.readWord_writeWord hwf haddr]
  case tick =>
    obtain ⟨w, hw, -, hir⟩ := step_executing (s := t.setDelay 0) rfl
    exact ⟨w, hw, hir⟩

/-- An instruction that stores `v` to the RAM address `addr` succeeds, and the next fetch sees the store. -/
theorem exec_fetchSeesStore {i : Instr} {s : State} (hwf : Memory.wf s.mem = true) {addr : Nat} {v : Word}
    (h : i.ramStore s = some (addr, v)) : ∃ t, exec i s = .next t ∧ FetchSeesStore s t addr v := by
  obtain ⟨t, ht, hmem, -⟩ := exec_mem i s
  rw [h, Memory.afterStore_some] at hmem
  exact ⟨t, ht, fetchSeesStore_of_writeWord hwf (ramStore_addr_lt h) hmem⟩

/-- Settles O48: each of the three instructions, in both forms, is a store that `exec_fetchSeesStore` is about. -/
theorem storeIsSeenByNextFetch : Obligations.StoreIsSeenByNextFetch := by
  intro s a b l v hwf
  simp only [List.forall_mem_cons, List.not_mem_nil, false_imp_iff, implies_true, and_true]
  refine ⟨fun hram => ?str, ⟨?pshTeeny, ?pshLong⟩, ⟨?calTeeny, ?calLong⟩⟩
  case str =>
    have hstore := congrArg (Option.map (·, s.getReg b)) (ramAddr_of_lt hram)
    exact ⟨exec_fetchSeesStore hwf hstore, exec_fetchSeesStore hwf hstore⟩
  case pshTeeny | pshLong | calTeeny | calLong => exact exec_fetchSeesStore hwf rfl

end Sys2Proof.Machine


/-! The instruction word (30_encoding.md R51, R60): as a number, and both ways between Words and instructions. -/

namespace Sys2Proof

/-! ## The instruction word as a number -/

/-- Bits put side by side are digits of a number. -/
theorem toNat_append_eq_add {m n : Nat} (x : BitVec m) (y : BitVec n) :
    (x ++ y).toNat = x.toNat * 2 ^ n + y.toNat := by
  rw [BitVec.toNat_append, ← Nat.shiftLeft_add_eq_or_of_lt y.isLt, Nat.shiftLeft_eq]

theorem toNat_wordOfFields (f : Fields) :
    (wordOfFields f).toNat = f.opcode.code.toNat * 2048 + (if f.teeny then 1 else 0) * 1024 +
      f.reg1.index.toNat * 128 + f.reg2.index.toNat * 16 + f.low4.toNat := by
  have hteeny : (BitVec.ofBool f.teeny).toNat = if f.teeny then 1 else 0 := by
    cases f.teeny <;> rfl
  simp only [wordOfFields_eq, toNat_append_eq_add, hteeny]
  ring

/-- Settles O6: the first Word is `wordOfFields`, whose fields stand at the weights of R51. -/
theorem instructionWordIsSumOfFields : Obligations.InstructionWordIsSumOfFields := by
  intro i
  refine ⟨wordOfFields i.fields, _, rfl, ?length, toNat_wordOfFields i.fields⟩
  cases i.fields.teeny with
  | true => rfl
  | false => rfl

/-! ## Every two Words are an instruction -/

theorem decodeWords_teeny {w1 : Word} (h : teenyField w1 = true) (w2 : Word) :
    decodeWords w1 w2 = decodeTeeny w1 := if_pos h

theorem decodeWords_long {w1 : Word} (h : teenyField w1 = false) (w2 : Word) :
    decodeWords w1 w2 = decodeLong w1 w2 := if_neg (Bool.eq_false_iff.1 h)

theorem encode_of_teeny {i : Instr} (h : i.fields.teeny = true) : encode i = [wordOfFields i.fields] := by
  rw [encode, if_pos h]

theorem encode_of_long {i : Instr} (h : i.fields.teeny = false) :
    encode i = [wordOfFields i.fields, trunc16 i.fields.imm] := by
  rw [encode, if_neg (Bool.eq_false_iff.1 h)]

/-- A TEENY instruction's words are the Word it was decoded from. -/
theorem encode_decodeTeeny {w : Word} (h : teenyField w = true) : encode (decodeTeeny w) = [w] := by
  have hfields := Instr.ofTeeny_fields (Opcode.ofCode (opcodeField w)) (Reg.ofIndex (reg1Field w))
    (Reg.ofIndex (reg2Field w)) (low4Field w)
  rw [decodeTeeny, encode_of_teeny (by rw [hfields]), hfields,
    wordOfFields_fields w _ _ _ _ _ (by simp) h.symm (by simp) (by simp)]

/-- A LONG instruction's words are the two it was decoded from. -/
theorem encode_decodeLong {w1 : Word} (h : teenyField w1 = false) (w2 : Word) :
    encode (decodeLong w1 w2) = [w1, w2] := by
  have hfields := Instr.ofLong_fields (Opcode.ofCode (opcodeField w1)) (Reg.ofIndex (reg1Field w1))
    (Reg.ofIndex (reg2Field w1)) (low4Field w1) w2
  rw [decodeLong, encode_of_long (by rw [hfields]), hfields,
    wordOfFields_fields w1 _ _ _ _ _ (by simp) h.symm (by simp) (by simp), trunc16_imm16]

/-- Settles O5: by the teeny flag, the pair decodes to a TEENY or a LONG instruction, which is well formed and
encodes to the Words it came from. -/
theorem everyWordPairIsAnInstruction : Obligations.EveryWordPairIsAnInstruction := by
  intro w1 w2
  cases h : teenyField w1 with
  | true =>
    rw [decodeWords_teeny h]
    exact ⟨Instr.ofTeeny_wellFormed _ _ _ _, encode_decodeTeeny h⟩
  | false =>
    rw [decodeWords_long h]
    exact ⟨Instr.ofLong_wellFormed _ _ _ _ _, encode_decodeLong h w2⟩

end Sys2Proof

/-! The meaning of an opcode over the fields it is given, which both forms of an instruction share (30_encoding.md R57,
R62). -/

namespace Sys2Proof.Machine

/-! ## What an opcode does with its fields, in either form -/

/-- The operation of an opcode on its registers, its condition bits (those of a jump) and its immediate. -/
def opcodeMeaning (op : Opcode) (a b : Reg) (c : BitVec 3) (v : Int) (s : State) : Result :=
  match op with
  | .set => opSet a b v s
  | .lod => opLod a b v s
  | .str => opStr a b v s
  | .psh => opPsh b v s
  | .pop => opPop a s
  | .bts => opBit setBit b v s
  | .btc => opBit clearBit b v s
  | .btf => opBit flipBit b v s
  | .cal => opCal b v s
  | .add => opArith add16 a b v s
  | .sub => opArith sub16 a b v s
  | .mpy => opArith mul16 a b v s
  | .div => opDivide div16 a b v s
  | .mod => opDivide mod16 a b v s
  | .and => opArith and16 a b v s
  | .or => opArith or16 a b v s
  | .xor => opArith xor16 a b v s
  | .shf => opShf a b v s
  | .rot => .next s
  | .neg => opNeg a s
  | .cmp => opCmp a b v s
  | .jmp => opJmp a c v s
  | .djz => opDjz a b v s
  | .dly => opDly b v s
  | .reserved24 | .reserved25 | .reserved26 | .reserved27 | .reserved28 | .reserved29 | .reserved30
  | .reserved31 => opReserved op.code s

theorem exec_ofTeeny (op : Opcode) (a b : Reg) (n : BitVec 4) (s : State) :
    exec (Instr.ofTeeny op a b n) s = opcodeMeaning op a b (n.extractLsb' 0 3) (sext4 n) s := by
  cases op <;> rfl

theorem exec_ofLong (op : Opcode) (a b : Reg) (n : BitVec 4) (w : Word) (s : State) :
    exec (Instr.ofLong op a b n w) s = opcodeMeaning op a b (n.extractLsb' 0 3) (imm16 w) s := by
  cases op <;> rfl

/-! ## The fields an opcode ignores -/

/-- The meaning looks at reg1, reg2 and the immediate only where R57 and R118 say that the opcode uses them, and at
the condition bits only for a jump. -/
theorem opcodeMeaning_congr {op : Opcode} {a a' b b' : Reg} {c c' : BitVec 3} {v v' : Int}
    (ha : op.ignoresReg1 = false → a = a') (hb : op.ignoresReg2 = false → b = b')
    (hc : op = .jmp → c = c') (hv : op.ignoresImm = false → v = v') (s : State) :
    opcodeMeaning op a b c v s = opcodeMeaning op a' b' c' v' s := by
  cases op with
  | set | lod | str | add | sub | mpy | div | mod | and | or | xor | shf | cmp | djz =>
    rw [ha rfl, hb rfl, hv rfl]; rfl
  | psh | cal | dly | bts | btc | btf => rw [hb rfl, hv rfl]; rfl
  | pop | neg => rw [ha rfl]; rfl
  | jmp => rw [ha rfl, hc rfl, hv rfl]; rfl
  | rot | reserved24 | reserved25 | reserved26 | reserved27 | reserved28 | reserved29 | reserved30 | reserved31 =>
    rfl

/-! ## Two forms, and Words that differ in ignored fields -/

/-- Settles O10: both forms give `opcodeMeaning` the same fields, but for the condition bits, which only a jump
reads. -/
theorem teenyAndLongFormsAgree : Obligations.TeenyAndLongFormsAgree := by
  intro op a b n l w s hjmp himm
  calc exec (Instr.ofTeeny op a b n) s
      = opcodeMeaning op a b (n.extractLsb' 0 3) (sext4 n) s := exec_ofTeeny op a b n s
    _ = opcodeMeaning op a b (l.extractLsb' 0 3) (imm16 w) s :=
        opcodeMeaning_congr (fun _ => rfl) (fun _ => rfl) (fun h => absurd h hjmp) (fun _ => himm) s
    _ = exec (Instr.ofLong op a b l w) s := (exec_ofLong op a b l w s).symm

/-- Settles O9: the two pairs decode to one form of one opcode, whose meaning does not look where they differ. -/
theorem unusedFieldsAreIgnored : Obligations.UnusedFieldsAreIgnored := by
  intro w1 w2 w1' w2' s hop hteeny hreg1 hreg2 himm hcond
  have ha := fun h => congrArg Reg.ofIndex (hreg1 h)
  have hb := fun h => congrArg Reg.ofIndex (hreg2 h)
  cases hform : teenyField w1 with
  | true =>
    rw [decodeWords_teeny hform, decodeWords_teeny (hteeny ▸ hform), decodeTeeny, decodeTeeny, exec_ofTeeny,
      exec_ofTeeny, ← hop]
    simp only [hform, if_true] at himm
    exact opcodeMeaning_congr ha hb hcond (fun h => congrArg sext4 (himm h)) s
  | false =>
    rw [decodeWords_long hform, decodeWords_long (hteeny ▸ hform), decodeLong, decodeLong, exec_ofLong,
      exec_ofLong, ← hop]
    simp only [hform, Bool.false_eq_true, if_false] at himm
    exact opcodeMeaning_congr ha hb hcond (fun h => congrArg imm16 (himm h)) s

end Sys2Proof.Machine

/-! The tick around an instruction (40_fetch_decode_execute_cycle.md R65, R71) and the flags an instruction writes
(R73). -/

namespace Sys2Proof.Machine

/-! ## The flags of a result -/

theorem flagsOf_equals_iff (v : Word) : (flagsOf v).equals = true ↔ v.toNat = 0 := by
  rw [flagsOf_equals, beq_iff_eq, ← BitVec.toNat_inj, BitVec.toNat_ofNat]

theorem flagsOf_less_iff (v : Word) : (flagsOf v).less = true ↔ 0x8000 ≤ v.toNat := by
  rw [flagsOf_less, BitVec.msb_eq_decide, decide_eq_true_iff]

theorem flagsOf_greater_iff (v : Word) : (flagsOf v).greater = true ↔ 1 ≤ v.toNat ∧ v.toNat ≤ 0x7FFF := by
  have hv := v.isLt
  rw [flagsOf_greater, decide_eq_true_iff, BitVec.toInt_eq_toNat_cond]
  split <;> omega

theorem flagsJudge_flagsOf (v : Word) : FlagsJudge (flagsOf v) v :=
  ⟨flagsOf_equals_iff v, flagsOf_less_iff v, flagsOf_greater_iff v⟩

/-- The ranges of R73 fix all three flags. -/
theorem FlagsJudge.eq_ranges {f : Flags} {v : Word} (h : FlagsJudge f v) :
    f = ⟨decide (v.toNat = 0), decide (0x8000 ≤ v.toNat), decide (1 ≤ v.toNat ∧ v.toNat ≤ 0x7FFF)⟩ := by
  obtain ⟨hequals, hless, hgreater⟩ := h
  simp only [← hequals, ← hless, ← hgreater, Bool.decide_eq_true]

/-- The ranges of R73 meet nowhere and leave no Word out, so exactly one flag is true. -/
theorem FlagsJudge.exactly_one {f : Flags} {v : Word} (h : FlagsJudge f v) :
    f = ⟨true, false, false⟩ ∨ f = ⟨false, true, false⟩ ∨ f = ⟨false, false, true⟩ := by
  rw [h.eq_ranges]
  simp only [Flags.mk.injEq, decide_eq_true_iff, decide_eq_false_iff_not]
  have hrange : v.toNat = 0 ∨ 0x8000 ≤ v.toNat ∨ (1 ≤ v.toNat ∧ v.toNat ≤ 0x7FFF) := by omega
  rcases hrange with hzero | hneg | hpos
  · left; omega
  · right; left; omega
  · right; right; omega

/-- Settles O21: the flags of a result judge it, and flags that judge a result have exactly one true. -/
theorem flagsJudgeTheResult : Obligations.FlagsJudgeTheResult := by
  intro s v
  rw [State.setFlags_flags]
  exact ⟨flagsJudge_flagsOf v, (flagsJudge_flagsOf v).exactly_one⟩

/-! ## The two kinds of tick -/

/-- Settles O14: the instruction answers a next state, and the end of the tick sets register-zero in it. -/
theorem registerZeroForcedAfterInstruction : Obligations.RegisterZeroForcedAfterInstruction := by
  intro s hdelay
  obtain ⟨t, ht, -⟩ := exec_mem s.fetch.2 s.fetch.1
  exact ⟨t.retire, step_of_exec hdelay ht, by rw [State.retire_getReg, if_pos rfl]⟩

/-- Settles O11: a busy tick is `State.busyTick`, which writes the delay counter alone. -/
theorem busyTickOnlyCountsDown : Obligations.BusyTickOnlyCountsDown := by
  intro s hdelay
  have hcount : s.busyTick.delay + 1 = s.delay := by
    rw [State.busyTick_delay]
    exact Nat.sub_add_cancel (Nat.pos_of_ne_zero hdelay)
  exact ⟨s.busyTick, step_busy hdelay, hcount, fun r _ => State.busyTick_getReg s r, State.busyTick_flags s,
    fun k => by rw [State.busyTick_mem], ⟨State.busyTick_ir s, State.busyTick_cycles s⟩, State.busyTick_events s⟩

end Sys2Proof.Machine

/-! SET, LOD and STR (41_data_movement.md) and the output events of every instruction (20_memory.md R38 to R40,
46_control_flow_and_delay.md R118). -/

namespace Sys2Proof.Machine

/-! ## An instruction's meaning from its fields, and its words -/

/-- Every instruction means what its opcode does with its fields; the condition bits matter to a jump alone. -/
theorem exec_eq_opcodeMeaning (i : Instr) : ∃ c, ∀ s, exec i s =
    opcodeMeaning i.fields.opcode i.fields.reg1 i.fields.reg2 c i.fields.imm s := by
  cases i with
  | jmpTeeny a b c v => exact ⟨c, fun _ => rfl⟩
  | jmpLong a b x c v => exact ⟨c, fun _ => rfl⟩
  | _ => exact ⟨0#3, fun _ => rfl⟩

theorem encodedAs_of_teeny_fields {i : Instr} {op : Opcode} {a b : Reg} {v : Int}
    (h : i.fields = ⟨op, true, a, b, BitVec.ofInt 4 v, v⟩) : EncodedAs i op.code a b v := by
  refine ⟨wordOfFields i.fields, ?_, ?_, ?_, .inl ⟨?_, ?_, encode_of_teeny (by rw [h])⟩⟩
  all_goals simp [h]

theorem encodedAs_of_long_fields {i : Instr} {op : Opcode} {a b : Reg} {l : BitVec 4} {v : Int}
    (h : i.fields = ⟨op, false, a, b, l, v⟩) : EncodedAs i op.code a b v := by
  have hwords : encode i = [wordOfFields i.fields, trunc16 v] := by rw [encode_of_long (by rw [h]), h]
  refine ⟨wordOfFields i.fields, ?_, ?_, ?_, .inr ⟨?_, hwords⟩⟩
  all_goals simp [h]

/-- Either form of an opcode stands for its fields, and means what the opcode does with them. -/
theorem encodedAs_and_exec_of_form {teeny long i : Instr} {op : Opcode} {a b : Reg} {l : BitVec 4} {v : Int}
    (hteeny : teeny.fields = ⟨op, true, a, b, BitVec.ofInt 4 v, v⟩) (hlong : long.fields = ⟨op, false, a, b, l, v⟩)
    (hi : i ∈ [teeny, long]) :
    EncodedAs i op.code a b v ∧ ∃ c, ∀ s, exec i s = opcodeMeaning op a b c v s := by
  obtain ⟨c, hexec⟩ := exec_eq_opcodeMeaning i
  simp only [List.mem_cons, List.not_mem_nil, or_false] at hi
  rcases hi with rfl | rfl
  · rw [hteeny] at hexec
    exact ⟨encodedAs_of_teeny_fields hteeny, c, hexec⟩
  · rw [hlong] at hexec
    exact ⟨encodedAs_of_long_fields hlong, c, hexec⟩

/-! ## What is unchanged, read off the fields of the state -/

theorem sameRegs_of_regs_eq {s t : State} (h : t.regs = s.regs) (rs : List Reg) : SameRegs s t rs := by
  intro r _
  rw [State.getReg_eq_get, h, State.getReg_eq_get]

theorem sameRegs_of_regs_set {s t : State} {a : Reg} {w : Word} (h : t.regs = s.regs.set a w) :
    SameRegs s t [a] := by
  intro r hr
  have hne : r ≠ a := mt List.mem_singleton.2 hr
  rw [State.getReg_eq_get, h, RegFile.get_set, if_neg hne, State.getReg_eq_get]

theorem getReg_of_regs_set {s t : State} {a : Reg} {w : Word} (h : t.regs = s.regs.set a w) : t.getReg a = w := by
  rw [State.getReg_eq_get, h, RegFile.get_set, if_pos rfl]

theorem sameRam_of_mem_eq {s t : State} (h : t.mem = s.mem) : SameRam s t := by
  intro k
  rw [h]

theorem inRam_of_lt {a : Word} (h : a.toNat < 0x8000) : inRam a = true := (inRam_iff a).2 h

theorem inRam_of_ge {a : Word} (h : 0x8000 ≤ a.toNat) : inRam a = false :=
  Bool.eq_false_iff.2 fun hin => Nat.not_lt.2 h ((inRam_iff a).1 hin)

/-! ## SET, LOD, STR -/

/-- Settles O26: both forms are `opSet`, which writes the operand to reg1 and nothing else. -/
theorem setWritesOperand : Obligations.SetWritesOperand := by
  intro s a b l v i hi
  obtain ⟨hwords, c, hexec⟩ := encodedAs_and_exec_of_form (op := .set) rfl rfl hi
  have hregs : (s.setReg a (s.opnd b v)).regs = s.regs.set a (s.opnd b v) := State.setReg_regs s a _
  refine ⟨hwords, _, hexec s, ?value, sameRegs_of_regs_set hregs, sameRam_of_mem_eq rfl, ⟨rfl, rfl⟩, rfl, rfl, rfl⟩
  case value =>
    rw [getReg_of_regs_set hregs]
    exact s.toNat_regPlusImm b v

/-- Settles O27: below 0x8000 both forms are the RAM case of `opLod`. -/
theorem lodReadsRam : Obligations.LodReadsRam := by
  intro s a b l v hram i hi
  obtain ⟨hwords, c, hexec⟩ := encodedAs_and_exec_of_form (op := .lod) rfl rfl hi
  have hnext := (hexec s).trans (opLod_ram a b v s (inRam_of_lt hram))
  exact ⟨hwords, _, hnext, getReg_of_regs_set rfl, sameRegs_of_regs_set rfl, sameRam_of_mem_eq rfl, ⟨rfl, rfl⟩, rfl,
    rfl, rfl⟩

/-- Settles O28: from 0x8000 on both forms are the bus case of `opLod`, whose data and delay the host answers. -/
theorem lodReadsBus : Obligations.LodReadsBus := by
  intro s a b l v hbus i hi
  obtain ⟨-, c, hexec⟩ := encodedAs_and_exec_of_form (op := .lod) rfl rfl hi
  have hnext := (hexec s).trans (opLod_bus a b v s (inRam_of_ge hbus))
  exact ⟨_, Config.busReadData s.events s.cycles (s.opnd b v), Config.busReadDelay s.events s.cycles (s.opnd b v),
    hnext, rfl, getReg_of_regs_set rfl, sameRegs_of_regs_set rfl, sameRam_of_mem_eq rfl, ⟨rfl, rfl⟩, rfl,
    (Nat.add_assoc _ _ _).symm⟩

/-- Settles O29: below 0x8000 both forms are the RAM case of `opStr`, a write of one Word. -/
theorem strWritesRam : Obligations.StrWritesRam := by
  intro s a b l v hwf hram i hi
  obtain ⟨hwords, c, hexec⟩ := encodedAs_and_exec_of_form (op := .str) rfl rfl hi
  have hnext := (hexec s).trans (opStr_ram a b v s (inRam_of_lt hram))
  exact ⟨hwords, _, hnext, Memory.readWord_writeWord_same hwf hram _,
    fun _ => Memory.readByte_writeWord_ne _ _ _, sameRegs_of_regs_eq rfl [], ⟨rfl, rfl⟩, rfl,
    rfl, rfl⟩

/-- Settles O30: from 0x8000 on both forms are the bus case of `opStr`, whose delay the host answers. -/
theorem strWritesBus : Obligations.StrWritesBus := by
  intro s a b l v hbus i hi
  obtain ⟨-, c, hexec⟩ := encodedAs_and_exec_of_form (op := .str) rfl rfl hi
  have hnext := (hexec s).trans (opStr_bus a b v s (inRam_of_ge hbus))
  exact ⟨_, Config.busWriteDelay s.events s.cycles (s.regPlusImm a v) (s.getReg b), hnext, rfl,
    sameRegs_of_regs_eq rfl [], sameRam_of_mem_eq rfl, ⟨rfl, rfl⟩, rfl, (Nat.add_assoc _ _ _).symm⟩

/-! ## Output events -/

theorem opcodeMeaning_reserved {op : Opcode} (h : op.isReserved = true) (a b : Reg) (c : BitVec 3) (v : Int)
    (s : State) : opcodeMeaning op a b c v s = opReserved op.code s := by
  cases op with
  | reserved24 | reserved25 | reserved26 | reserved27 | reserved28 | reserved29 | reserved30 | reserved31 => rfl
  | _ => cases h

theorem exec_reserved {i : Instr} (h : i.fields.opcode.isReserved = true) (s : State) :
    exec i s = opReserved i.fields.opcode.code s := by
  obtain ⟨c, hexec⟩ := exec_eq_opcodeMeaning i
  rw [hexec, opcodeMeaning_reserved h]

/-- Only LOD, STR and the reserved opcodes have outputs. -/
theorem opcodeMeaning_events_unchanged {op : Opcode} (hlod : op ≠ .lod) (hstr : op ≠ .str)
    (hreserved : op.isReserved = false) {a b : Reg} {c : BitVec 3} {v : Int} {s t : State}
    (h : opcodeMeaning op a b c v s = .next t) : t.events = s.events := by
  cases op with
  | lod | str => contradiction
  | reserved24 | reserved25 | reserved26 | reserved27 | reserved28 | reserved29 | reserved30 | reserved31 =>
    cases hreserved
  | set | psh | pop | cal | add | sub | mpy | and | or | xor | shf | rot | neg | cmp => cases h; rfl
  | div | mod =>
    rcases opDivide_cases h with ⟨-, rfl⟩ | ⟨-, rfl⟩ <;> rfl
  | bts | btc | btf =>
    rcases opBit_cases h with ⟨-, rfl⟩ | ⟨-, rfl⟩ <;> rfl
  | jmp =>
    rcases opJmp_cases h with ⟨-, rfl⟩ | ⟨-, rfl⟩ <;> rfl
  | djz =>
    rcases opDjz_cases h with ⟨-, rfl⟩ | ⟨-, rfl⟩ <;> rfl
  | dly =>
    rcases opDly_cases h with ⟨-, rfl⟩ | ⟨-, rfl⟩ <;> rfl

/-- Settles O24: LOD and STR make their one bus call from 0x8000 on, a reserved opcode reports itself, and no other
opcode has an output. -/
theorem outputEventsOnlyAsSpecified : Obligations.OutputEventsOnlyAsSpecified := by
  intro i s t h
  by_cases hlod : i.fields.opcode = .lod
  · rw [exec_lod hlod] at h
    simp only [busAddress_lod hlod, if_pos hlod]
    rcases opLod_cases h with ⟨hram, rfl⟩ | ⟨hbus, rfl⟩
    · rw [if_pos hram]; rfl
    · rw [if_neg (Nat.not_lt.2 hbus)]
      exact ⟨_, _, rfl⟩
  by_cases hstr : i.fields.opcode = .str
  · rw [exec_str hstr] at h
    simp only [busAddress_str hstr, if_neg hlod]
    rcases opStr_cases h with ⟨hram, rfl⟩ | ⟨hbus, rfl⟩
    · rw [if_pos hram]; rfl
    · rw [if_neg (Nat.not_lt.2 hbus)]
      exact ⟨_, rfl⟩
  simp only [busAddress_eq_none hlod hstr]
  cases hreserved : i.fields.opcode.isReserved with
  | true =>
    rw [exec_reserved hreserved] at h
    cases h
    rfl
  | false =>
    obtain ⟨c, hexec⟩ := exec_eq_opcodeMeaning i
    exact opcodeMeaning_events_unchanged hlod hstr hreserved ((hexec s).symm.trans h)

end Sys2Proof.Machine

/-! PSH, POP and CAL (42_stack_and_call.md): the one Word each of them moves, and the stack as the list of Words above
sp, to which a push adds its Word in front and from which a pop takes the first. -/

namespace Sys2Proof.Machine

/-! ## What is unchanged over two steps -/

theorem SameRegs.mono {s t : State} {rs rs' : List Reg} (h : SameRegs s t rs) (hsub : rs ⊆ rs') :
    SameRegs s t rs' :=
  fun r hr => h r fun hmem => hr (hsub hmem)

theorem SameRegs.trans {s t u : State} {rs : List Reg} (hst : SameRegs s t rs) (htu : SameRegs t u rs) :
    SameRegs s u rs :=
  fun r hr => (htu r hr).trans (hst r hr)

theorem sameRegs_setReg (s : State) (a : Reg) (w : Word) : SameRegs s (s.setReg a w) [a] :=
  sameRegs_of_regs_set rfl

theorem sameRegs_push (s : State) (w : Word) : SameRegs s (s.push w) [.sp] := sameRegs_of_regs_set rfl

theorem sameRegs_push_setReg (s : State) (w : Word) (a : Reg) (x : Word) :
    SameRegs s ((s.push w).setReg a x) [.sp, a] :=
  ((sameRegs_push s w).mono (by simp)).trans ((sameRegs_setReg _ a x).mono (by simp))

theorem sameRegs_popInto (s : State) (a : Reg) : SameRegs s (s.popInto a) [.sp, a] :=
  ((sameRegs_setReg s .sp _).mono (by simp)).trans ((sameRegs_setReg _ a _).mono (by simp))

theorem sameRamBut_push (s : State) (w : Word) : SameRamBut s (s.push w) ((s.getReg .sp).toNat % 0x8000) :=
  fun _ => s.readByte_push_ne w

/-! ## A pop -/

/-- The Word a pop reads, into whichever register. -/
theorem State.popInto_getReg_same (s : State) (a : Reg) :
    (s.popInto a).getReg a = Memory.readWord s.mem (((s.getReg .sp).toNat + 1) % 0x8000) := by
  rw [State.popInto_getReg, if_pos rfl, State.ramRead, toNat_popAddr]

/-- Where a pop into another register leaves sp. -/
theorem State.popInto_sp (s : State) {a : Reg} (ha : a ≠ .sp) :
    ((s.popInto a).getReg .sp).toNat = ((s.getReg .sp).toNat + 1) % 0x8000 := by
  rw [State.popInto_getReg, if_neg ha.symm, if_pos rfl, toNat_popAddr]

/-! ## PSH, POP, CAL -/

/-- Settles O31: both forms push the operand, which is computed before sp changes. -/
theorem pshStoresThenDecrements : Obligations.PshStoresThenDecrements := by
  intro s a b l v hwf i hi
  obtain ⟨hwords, c, hexec⟩ := encodedAs_and_exec_of_form (op := .psh) rfl rfl hi
  refine ⟨hwords, s.push (s.opnd b v), hexec s, ?word, s.push_sp _, sameRegs_push s _, sameRamBut_push s _,
    ⟨rfl, rfl⟩, rfl, rfl, rfl⟩
  case word =>
    rw [State.readWord_push_same hwf]
    exact s.toNat_regPlusImm b v

/-- Settles O32: both forms pop into reg1, sp included. -/
theorem popIncrementsThenLoads : Obligations.PopIncrementsThenLoads := by
  intro s a b l v i hi
  obtain ⟨hwords, c, hexec⟩ := encodedAs_and_exec_of_form (op := .pop) rfl rfl hi
  exact ⟨hwords, s.popInto a, hexec s, s.popInto_getReg_same a, s.popInto_sp, sameRegs_popInto s a,
    sameRam_of_mem_eq rfl, ⟨rfl, rfl⟩, rfl, rfl, rfl⟩

/-- The target of a CAL reads its register after the push: a CAL through sp sees the decremented sp. -/
theorem State.toNat_regPlusImm_push (s : State) (w : Word) (b : Reg) (v : Int) :
    (((s.push w).regPlusImm b v).toNat : Int) =
      ((if b = .sp then ((s.push w).getReg .sp).toNat else (s.getReg b).toNat : Nat) + v) % 65536 := by
  rw [State.toNat_regPlusImm]
  split
  next hsp => rw [hsp]
  next hne => rw [State.push_getReg, if_neg hne]

/-- Settles O33: both forms push pc and then write pc, so RAM and sp are those of the push. -/
theorem calPushesPcAndJumps : Obligations.CalPushesPcAndJumps := by
  intro s a b l v hwf i hi
  obtain ⟨hwords, c, hexec⟩ := encodedAs_and_exec_of_form (op := .cal) rfl rfl hi
  exact ⟨hwords, _, hexec s, State.readWord_push_same hwf (s.getReg .pc), s.push_sp (s.getReg .pc),
    s.toNat_regPlusImm_push (s.getReg .pc) b v, sameRegs_push_setReg s _ .pc _,
    sameRamBut_push s (s.getReg .pc), ⟨rfl, rfl⟩, rfl, rfl, rfl⟩

/-- Settles O50: the pop reads the Word the call stored, because it increments the sp the call decremented. -/
theorem callThenReturnRestoresPc : Obligations.CallThenReturnRestoresPc := by
  intro s a b c l m v u hwf i hi j hj
  obtain ⟨-, t, ht, hpushed, hsp, -, hregs, -⟩ := calPushesPcAndJumps s a b l v hwf i hi
  obtain ⟨-, t', ht', hpopped, hsp', hregs', -⟩ := popIncrementsThenLoads t .pc c m u j hj
  have haddr : ((t.getReg .sp).toNat + 1) % 0x8000 = (s.getReg .sp).toNat % 0x8000 := by omega
  rw [haddr] at hpopped hsp'
  exact ⟨t, t', ht, ht', hpopped.trans hpushed, hsp' (by decide), (hregs.trans hregs').mono (by simp)⟩

/-! ## The stack as a list of Words -/

/-- The `d` Words of RAM above sp, modulo 0x8000: the next `d` Words to pop, in order. -/
def State.stackWords (s : State) (d : Nat) : List Word :=
  (List.range d).map fun k => Memory.readWord s.mem (((s.getReg .sp).toNat + 1 + k) % 0x8000)

@[simp] theorem State.stackWords_zero (s : State) : s.stackWords 0 = [] := rfl

/-- A push puts its Word on top and leaves what is below; it would overwrite the deepest of 0x8000 Words. -/
theorem State.stackWords_push {s : State} (hwf : Memory.wf s.mem = true) (w : Word) {d : Nat} (hd : d < 0x8000) :
    (s.push w).stackWords (d + 1) = w :: s.stackWords d := by
  have hsp := s.push_sp w
  rw [State.stackWords, List.range_succ_eq_map, List.map_cons, List.map_map]
  congr 1
  · rw [show (((s.push w).getReg .sp).toNat + 1 + 0) % 0x8000 = (s.getReg .sp).toNat % 0x8000 by omega]
    exact State.readWord_push_same hwf w
  · refine List.map_congr_left fun k hk => ?_
    have hkd : k < d := List.mem_range.1 hk
    have haddr : (((s.push w).getReg .sp).toNat + 1 + (k + 1)) % 0x8000 =
        ((s.getReg .sp).toNat + 1 + k) % 0x8000 := by omega
    rw [Function.comp_apply, Nat.succ_eq_add_one, haddr, State.push_mem, toNat_mask15]
    exact Memory.readWord_writeWord_ne _ w (by omega)

/-- A pop takes the top Word and leaves what is below. -/
theorem State.stackWords_popInto (s : State) {a : Reg} (ha : a ≠ .sp) (d : Nat) :
    s.stackWords (d + 1) = (s.popInto a).getReg a :: (s.popInto a).stackWords d := by
  have hsp := s.popInto_sp ha
  rw [State.stackWords, List.range_succ_eq_map, List.map_cons, List.map_map, State.popInto_getReg_same]
  congr 1
  refine List.map_congr_left fun k _ => ?_
  have haddr : ((s.getReg .sp).toNat + 1 + (k + 1)) % 0x8000 =
      (((s.popInto a).getReg .sp).toNat + 1 + k) % 0x8000 := by omega
  rw [Function.comp_apply, Nat.succ_eq_add_one, haddr, State.popInto_mem]

/-! ## Many pushes, many pops -/

theorem pushAll_cons (r : Reg) (v : Int) (ps : List (Reg × Int)) (s : State) :
    pushAll ((r, v) :: ps) s =
      (pushAll ps (s.push (s.opnd r v))).map fun p => (s.opnd r v :: p.1, p.2) := rfl

theorem popAll_cons (r : Reg) (ds : List Reg) (s : State) :
    popAll (r :: ds) s = (popAll ds (s.popInto r)).map fun p => ((s.popInto r).getReg r :: p.1, p.2) := rfl

/-- A sequence of pushes puts its Words, the last on top, over the `d` Words that were there. -/
theorem pushAll_stackWords {ps : List (Reg × Int)} {s : State} {d : Nat} (hwf : Memory.wf s.mem = true)
    (hsp : (s.getReg .sp).toNat < 0x8000) (hfit : ps.length + d ≤ 0x8000) :
    ∃ ws t, pushAll ps s = some (ws, t) ∧ t.stackWords (ps.length + d) = ws.reverse ++ s.stackWords d ∧
      (t.getReg .sp).toNat = ((s.getReg .sp).toNat + 0x7FFF * ps.length) % 0x8000 := by
  induction ps generalizing s d with
  | nil => exact ⟨[], s, rfl, by simp, by simp [Nat.mod_eq_of_lt hsp]⟩
  | cons p ps ih =>
    obtain ⟨r, v⟩ := p
    rw [List.length_cons] at hfit ⊢
    have hnext := s.push_sp (s.opnd r v)
    obtain ⟨ws, t, hpush, hstack, ht⟩ :=
      ih (State.wf_push hwf (s.opnd r v)) (by omega) (d := d + 1) (by omega)
    refine ⟨s.opnd r v :: ws, t, by rw [pushAll_cons, hpush]; rfl, ?_, by omega⟩
    calc t.stackWords (ps.length + 1 + d)
        = t.stackWords (ps.length + (d + 1)) := by rw [Nat.add_right_comm, Nat.add_assoc]
      _ = ws.reverse ++ s.opnd r v :: s.stackWords d := by rw [hstack, State.stackWords_push hwf _ (by omega)]
      _ = (s.opnd r v :: ws).reverse ++ s.stackWords d := by simp

/-- A sequence of pops answers the Words on top of the stack. -/
theorem popAll_stackWords {ds : List Reg} {s : State} (hds : Reg.sp ∉ ds) (hsp : (s.getReg .sp).toNat < 0x8000) :
    ∃ u, popAll ds s = some (s.stackWords ds.length, u) ∧
      (u.getReg .sp).toNat = ((s.getReg .sp).toNat + ds.length) % 0x8000 := by
  induction ds generalizing s with
  | nil => exact ⟨s, rfl, (Nat.mod_eq_of_lt hsp).symm⟩
  | cons r ds ih =>
    have hr : r ≠ .sp := (List.ne_of_not_mem_cons hds).symm
    have hrest : Reg.sp ∉ ds := List.not_mem_of_not_mem_cons hds
    have hnext := s.popInto_sp hr
    obtain ⟨u, hpop, hu⟩ := ih hrest (s := s.popInto r) (by omega)
    rw [List.length_cons, s.stackWords_popInto hr]
    exact ⟨u, by rw [popAll_cons, hpop]; rfl, by omega⟩

/-- Settles O49: over an empty stack the pushes leave their Words in reverse order, which is what as many pops
answer. -/
theorem stackSymmetry : Obligations.StackSymmetry := by
  intro ps ds s hlen hfit hds hsp hwf
  obtain ⟨ws, t, hpush, hstack, ht⟩ := pushAll_stackWords (d := 0) hwf hsp hfit
  obtain ⟨u, hpop, hu⟩ := popAll_stackWords (s := t) hds (by omega)
  rw [Nat.add_zero, State.stackWords_zero, List.append_nil, ← hlen] at hstack
  exact ⟨ws, t, t.stackWords ds.length, u, hpush, hpop, hstack, BitVec.eq_of_toNat_eq (by omega)⟩

end Sys2Proof.Machine

/-! BTS, BTC and BTF (43_bit_operations.md): the one bit each of them changes, and the instructions that write one
register and the flags of its new value. -/

namespace Sys2Proof.Machine

/-! ## One bit of a Word -/

theorem getLsbD_oneBit (k : Nat) {j : Nat} (hj : j < 16) : (oneBit k).getLsbD j = decide (j = k) := by
  rw [oneBit, ← BitVec.twoPow_eq, BitVec.getLsbD_twoPow, ← Bool.decide_and]
  exact decide_eq_decide.2 (by omega)

theorem getLsbD_setBit (v : Word) (k : Nat) {j : Nat} (hj : j < 16) :
    (setBit v k).getLsbD j = if j = k then true else v.getLsbD j := by
  rw [setBit, BitVec.getLsbD_or, getLsbD_oneBit k hj]
  split
  next heq => simp [heq]
  next hne => simp [hne]

theorem getLsbD_clearBit (v : Word) (k : Nat) {j : Nat} (hj : j < 16) :
    (clearBit v k).getLsbD j = if j = k then false else v.getLsbD j := by
  rw [clearBit, BitVec.getLsbD_and, BitVec.getLsbD_not, getLsbD_oneBit k hj]
  split
  next heq => simp [heq]
  next hne => simp [hne, hj]

theorem getLsbD_flipBit (v : Word) (k : Nat) {j : Nat} (hj : j < 16) :
    (flipBit v k).getLsbD j = if j = k then !v.getLsbD j else v.getLsbD j := by
  rw [flipBit, BitVec.getLsbD_xor, getLsbD_oneBit k hj]
  split
  next heq => simp [heq]
  next hne => simp [hne]

/-! ## A register write with its flags -/

/-- What an instruction whose answer is one register write and the flags of the new value does to the state. -/
theorem writesAndJudges_of_exec {i : Instr} {s : State} {a : Reg} {w : Word}
    (h : exec i s = .next ((s.setReg a w).setFlags w)) : WritesAndJudges i s a w :=
  ⟨_, h, getReg_of_regs_set rfl, flagsJudge_flagsOf w, sameRegs_of_regs_set rfl, sameRam_of_mem_eq rfl, ⟨rfl, rfl⟩,
    rfl, rfl⟩

/-- Either form of an opcode that means `opBit f` writes `f` of reg2, at an index in range. -/
theorem writesAndJudges_of_opBit {teeny long i : Instr} {op : Opcode} {f : Word → Nat → Word} {a b : Reg}
    {l : BitVec 4} {v : Int} {s : State}
    (hteeny : teeny.fields = ⟨op, true, a, b, BitVec.ofInt 4 v, v⟩) (hlong : long.fields = ⟨op, false, a, b, l, v⟩)
    (hop : ∀ c, opcodeMeaning op a b c v s = opBit f b v s) (hk : (s.opnd b v).toNat ≤ 15)
    (hi : i ∈ [teeny, long]) :
    EncodedAs i op.code a b v ∧ WritesAndJudges i s b (f (s.getReg b) (s.opnd b v).toNat) := by
  obtain ⟨hwords, c, hexec⟩ := encodedAs_and_exec_of_form hteeny hlong hi
  refine ⟨hwords, writesAndJudges_of_exec ?_⟩
  calc exec i s
      = opcodeMeaning op a b c v s := hexec s
    _ = opBit f b v s := hop c
    _ = _ := opBit_inRange f b v s hk

/-! ## BTS, BTC, BTF -/

/-- Settles O34: in range each opcode writes `setBit`, `clearBit` or `flipBit` of reg2, which differ from it in one
bit; out of range `opBit` answers the state it was given. -/
theorem bitOpsChangeOneBitOfReg2 : Obligations.BitOpsChangeOneBitOfReg2 := by
  refine ⟨fun s a b l v hk => ⟨?set, ?clear, ?flip⟩, fun s a b l v hout => ?outOfRange⟩
  case set =>
    intro i hi
    obtain ⟨hwords, hwrites⟩ := writesAndJudges_of_opBit (op := .bts) rfl rfl (fun _ => rfl) hk hi
    exact ⟨hwords, _, hwrites, fun _ => getLsbD_setBit _ _⟩
  case clear =>
    intro i hi
    obtain ⟨hwords, hwrites⟩ := writesAndJudges_of_opBit (op := .btc) rfl rfl (fun _ => rfl) hk hi
    exact ⟨hwords, _, hwrites, fun _ => getLsbD_clearBit _ _⟩
  case flip =>
    intro i hi
    obtain ⟨hwords, hwrites⟩ := writesAndJudges_of_opBit (op := .btf) rfl rfl (fun _ => rfl) hk hi
    exact ⟨hwords, _, hwrites, fun _ => getLsbD_flipBit _ _⟩
  case outOfRange =>
    have hnothing (f : Word → Nat → Word) : opBit f b v s = .next s := opBit_outOfRange f b v s hout
    simp only [List.forall_mem_cons, List.not_mem_nil, false_imp_iff, implies_true, and_true]
    exact ⟨hnothing setBit, hnothing setBit, hnothing clearBit, hnothing clearBit, hnothing flipBit,
      hnothing flipBit⟩

end Sys2Proof.Machine


/-! ADD, SUB, MPY, DIV, MOD, AND, OR and XOR (44_arithmetic_logic.md): what the shared meanings `opArith` and
`opDivide` do in both forms, and the 16-bit operations as those of `BitVec` and of `Int`. -/

namespace Sys2Proof.Machine

/-! ## The 16-bit operations (40_fetch_decode_execute_cycle.md R76, R77) -/

/-- Narrowing undoes the unsigned view of a Word (00_scope.md R3). -/
theorem trunc16_toNat (w : Word) : trunc16 w.toNat = w :=
  calc trunc16 w.toNat
      = BitVec.ofNat 16 w.toNat := BitVec.ofInt_natCast 16 w.toNat
    _ = w := by rw [BitVec.ofNat_toNat, BitVec.setWidth_eq]

theorem add16_eq (a b : Word) : add16 a b = a + b :=
  calc trunc16 (a.toNat + b.toNat)
      = trunc16 a.toNat + trunc16 b.toNat := BitVec.ofInt_add _ _
    _ = a + b := by rw [trunc16_toNat, trunc16_toNat]

theorem sub16_eq (a b : Word) : sub16 a b = a - b :=
  calc trunc16 (a.toNat - b.toNat)
      = trunc16 a.toNat + trunc16 (-b.toNat) := BitVec.ofInt_add _ _
    _ = trunc16 a.toNat + -trunc16 b.toNat := congrArg _ BitVec.ofInt_neg
    _ = a - b := by rw [trunc16_toNat, trunc16_toNat, BitVec.sub_eq_add_neg]

theorem mul16_eq (a b : Word) : mul16 a b = a * b :=
  calc trunc16 (a.toNat * b.toNat)
      = trunc16 a.toNat * trunc16 b.toNat := BitVec.ofInt_mul _ _
    _ = a * b := by rw [trunc16_toNat, trunc16_toNat]

theorem div16_eq (a b : Word) : div16 a b = BitVec.ofInt 16 (a.toInt.tdiv b.toInt) := rfl

theorem mod16_eq (a b : Word) : mod16 a b = BitVec.ofInt 16 (a.toInt.tmod b.toInt) := by
  rw [Int.tmod_def]; rfl

/-! ## The remainder of a signed division (decision D6) -/

theorem natAbs_tmod_lt (x : Int) {y : Int} (hy : y ≠ 0) : (x.tmod y).natAbs < y.natAbs := by
  rw [Int.natAbs_tmod]
  exact Nat.mod_lt _ (Int.natAbs_pos.2 hy)

theorem tmod_nonpos {x : Int} (hx : x ≤ 0) (y : Int) : x.tmod y ≤ 0 := by
  have hneg : 0 ≤ (-x).tmod y := Int.tmod_nonneg y (by omega)
  rw [Int.neg_tmod] at hneg
  omega

/-! ## An instruction of the arithmetic group, in either form -/

/-- Either form of an opcode that means `opArith f` on these fields, as DIV and MOD do on a nonzero operand, writes
`f` of reg1 and of the operand (R103). -/
theorem writesAndJudges_of_opArith {teeny long i : Instr} {op : Opcode} {f : Word → Word → Word} {a b : Reg}
    {l : BitVec 4} {v : Int} {s : State}
    (hteeny : teeny.fields = ⟨op, true, a, b, BitVec.ofInt 4 v, v⟩) (hlong : long.fields = ⟨op, false, a, b, l, v⟩)
    (hop : ∀ c, opcodeMeaning op a b c v s = opArith f a b v s) (hi : i ∈ [teeny, long]) :
    EncodedAs i op.code a b v ∧ WritesAndJudges i s a (f (s.getReg a) (s.opnd b v)) := by
  obtain ⟨hwords, c, hexec⟩ := encodedAs_and_exec_of_form hteeny hlong hi
  refine ⟨hwords, writesAndJudges_of_exec ?_⟩
  calc exec i s
      = opcodeMeaning op a b c v s := hexec s
    _ = opArith f a b v s := hop c
    _ = _ := opArith_eq f a b v s

/-! ## ADD, SUB, MPY -/

/-- Settles O35: `add16`, `sub16` and `mul16` narrow the sum, difference or product of the unsigned views, which is
the operation of `BitVec`. -/
theorem addSubMpyWriteWrappedResult : Obligations.AddSubMpyWriteWrappedResult := by
  refine fun s a b l v => ⟨fun i hi => ?add, fun i hi => ?sub, fun i hi => ?mpy⟩
  case add =>
    rw [← add16_eq]
    exact writesAndJudges_of_opArith (op := .add) rfl rfl (fun _ => rfl) hi
  case sub =>
    rw [← sub16_eq]
    exact writesAndJudges_of_opArith (op := .sub) rfl rfl (fun _ => rfl) hi
  case mpy =>
    rw [← mul16_eq]
    exact writesAndJudges_of_opArith (op := .mpy) rfl rfl (fun _ => rfl) hi

/-! ## AND, OR, XOR -/

/-- Settles O36: `and16`, `or16` and `xor16` work on each bit by itself. -/
theorem andOrXorWriteBitwiseResult : Obligations.AndOrXorWriteBitwiseResult := by
  refine fun s a b l v => ⟨fun i hi => ?and, fun i hi => ?or, fun i hi => ?xor⟩
  case and =>
    obtain ⟨hwords, hwrites⟩ := writesAndJudges_of_opArith (op := .and) rfl rfl (fun _ => rfl) hi
    exact ⟨hwords, _, hwrites, fun _ _ => BitVec.getLsbD_and⟩
  case or =>
    obtain ⟨hwords, hwrites⟩ := writesAndJudges_of_opArith (op := .or) rfl rfl (fun _ => rfl) hi
    exact ⟨hwords, _, hwrites, fun _ _ => BitVec.getLsbD_or⟩
  case xor =>
    obtain ⟨hwords, hwrites⟩ := writesAndJudges_of_opArith (op := .xor) rfl rfl (fun _ => rfl) hi
    exact ⟨hwords, _, hwrites, fun _ _ => BitVec.getLsbD_xor⟩

/-! ## DIV, MOD -/

/-- Settles O37: the integers are the truncated quotient and its remainder, which `div16` and `mod16` narrow. -/
theorem divModBySignedTruncation : Obligations.DivModBySignedTruncation := by
  intro s a b l v hnonzero
  have hdivisor : (s.opnd b v).toInt ≠ 0 := BitVec.toInt_ne.2 hnonzero
  refine ⟨(s.getReg a).toInt.tdiv (s.opnd b v).toInt, (s.getReg a).toInt.tmod (s.opnd b v).toInt,
    (Int.tdiv_mul_add_tmod _ _).symm, natAbs_tmod_lt _ hdivisor, Int.tmod_nonneg _, fun h => tmod_nonpos h _,
    fun i hi => ?div, fun i hi => ?mod⟩
  case div =>
    rw [← div16_eq]
    exact writesAndJudges_of_opArith (op := .div) rfl rfl (fun _ => opDivide_nonzero div16 a b v s hnonzero) hi
  case mod =>
    rw [← mod16_eq]
    exact writesAndJudges_of_opArith (op := .mod) rfl rfl (fun _ => opDivide_nonzero mod16 a b v s hnonzero) hi

/-- The operand is the zero Word exactly when the register and the immediate sum to 0 modulo 65536 (R72). -/
theorem State.opnd_eq_zero_iff (s : State) (b : Reg) (v : Int) :
    s.opnd b v = 0#16 ↔ ((s.getReg b).toNat + v) % 65536 = 0 := by
  have hvalue : ((s.opnd b v).toNat : Int) = ((s.getReg b).toNat + v) % 65536 := s.toNat_regPlusImm b v
  rw [← hvalue, Int.natCast_eq_zero, BitVec.toNat_eq, BitVec.toNat_zero]

/-- Settles O38: all four forms are `opDivide`, which answers the state it was given when the operand is 0. -/
theorem divModByZeroSkipped : Obligations.DivModByZeroSkipped := by
  intro s a b l v hsum
  have hnothing (f : Word → Word → Word) : opDivide f a b v s = .next s :=
    opDivide_zero f a b v s ((s.opnd_eq_zero_iff b v).2 hsum)
  simp only [List.forall_mem_cons, List.not_mem_nil, false_imp_iff, implies_true, and_true]
  exact ⟨hnothing div16, hnothing div16, hnothing mod16, hnothing mod16⟩

end Sys2Proof.Machine


/-! SHF, ROT, NEG and CMP (45_shift_rotate_negate_compare.md): the shift as arithmetic on the unsigned view, the
two's complement, and what each of the four opcodes does in both forms. -/

namespace Sys2Proof.Machine

/-! ## The shift by a signed amount (R107; decision D7) -/

theorem shiftLeft_eq_ofNat {w : Nat} (v : BitVec w) (k : Nat) : v <<< k = BitVec.ofNat w (v.toNat * 2 ^ k) := by
  apply BitVec.eq_of_toNat_eq
  rw [BitVec.toNat_shiftLeft, BitVec.toNat_ofNat, Nat.shiftLeft_eq]

theorem ushiftRight_eq_ofNat {w : Nat} (v : BitVec w) (k : Nat) : v >>> k = BitVec.ofNat w (v.toNat / 2 ^ k) := by
  apply BitVec.eq_of_toNat_eq
  rw [BitVec.toNat_ushiftRight, BitVec.toNat_ofNat, Nat.shiftRight_eq_div_pow,
    Nat.mod_eq_of_lt ((Nat.div_le_self _ _).trans_lt v.isLt)]

theorem shift16_left (v : Word) {n : Int} (hlo : -15 ≤ n) (hneg : n < 0) :
    shift16 v n = BitVec.ofNat 16 (v.toNat * 2 ^ n.natAbs) := by
  have habs : (-n).toNat = n.natAbs := by omega
  calc shift16 v n
      = v <<< (-n).toNat := by rw [shift16, if_pos hneg, if_neg (by omega)]
    _ = _ := by rw [habs, shiftLeft_eq_ofNat]

/-- A shift by zero is a right shift by zero places. -/
theorem shift16_right (v : Word) {n : Int} (hnonneg : 0 ≤ n) (hhi : n ≤ 15) :
    shift16 v n = BitVec.ofNat 16 (v.toNat / 2 ^ n.natAbs) := by
  rw [← ushiftRight_eq_ofNat, shift16, if_neg (Int.not_lt.2 hnonneg)]
  rcases hnonneg.eq_or_lt with rfl | hpos
  · exact (BitVec.ushiftRight_zero v).symm
  · have habs : n.toNat = n.natAbs := by omega
    rw [if_pos hpos, if_neg (Int.not_lt.2 hhi), habs]

theorem shift16_beyond (v : Word) {n : Int} (hout : n < -15 ∨ 15 < n) : shift16 v n = 0#16 := by
  rcases hout with hlo | hhi
  · rw [shift16, if_pos (by omega), if_pos (by omega)]
  · rw [shift16, if_neg (by omega), if_pos (by omega), if_pos hhi]

/-- The three ranges of the amount, with the shift as arithmetic on the unsigned view. -/
theorem shift16_eq (v : Word) (n : Int) :
    shift16 v n =
      if -15 ≤ n ∧ n < 0 then BitVec.ofNat 16 (v.toNat * 2 ^ n.natAbs)
      else if 0 ≤ n ∧ n ≤ 15 then BitVec.ofNat 16 (v.toNat / 2 ^ n.natAbs)
      else 0#16 := by
  split
  next hleft => exact hleft.elim (shift16_left v)
  next hnotLeft =>
    split
    next hright => exact hright.elim (shift16_right v)
    next hnotRight => exact shift16_beyond v (by omega)

/-! ## The two's complement (40_fetch_decode_execute_cycle.md R78) -/

theorem neg16_eq (a : Word) : neg16 a = 0#16 - a :=
  calc trunc16 ((a ^^^ 0xFFFF#16).toNat + 1)
      = trunc16 (a ^^^ 0xFFFF#16).toNat + 1#16 := BitVec.ofInt_add _ _
    _ = ~~~a + 1#16 := by rw [trunc16_toNat, ← BitVec.xor_allOnes]; rfl
    _ = 0#16 - a := by rw [BitVec.zero_sub, BitVec.neg_eq_not_add]

/-! ## The flags of a difference -/

/-- Two Words are equal exactly when the flags of their wrapped difference say so (R110). -/
theorem flagsOf_sub_equals_iff (x y : Word) : (flagsOf (x - y)).equals = true ↔ x = y := by
  rw [flagsOf_equals, beq_iff_eq, BitVec.sub_eq_iff_eq_add, BitVec.zero_add]

/-! ## What the opcodes answer -/

theorem opShf_eq (a b : Reg) (v : Int) (s : State) :
    opShf a b v s = .next ((s.setReg a (shift16 (s.getReg a) (s.opnd b v).toInt)).setFlags
      (shift16 (s.getReg a) (s.opnd b v).toInt)) := rfl

theorem opNeg_eq (a : Reg) (s : State) :
    opNeg a s = .next ((s.setReg a (neg16 (s.getReg a))).setFlags (neg16 (s.getReg a))) := rfl

theorem opCmp_eq (a b : Reg) (v : Int) (s : State) :
    opCmp a b v s = .next (s.setFlags (s.getReg a - s.opnd b v)) := by
  rw [← sub16_eq]; rfl

/-! ## SHF, NEG, CMP, ROT -/

/-- Settles O39: both forms are `opShf`, which writes `shift16`, whose ranges are those of R107. -/
theorem shfShiftsBySignedAmount : Obligations.ShfShiftsBySignedAmount := by
  intro s a b l v i hi
  obtain ⟨hwords, c, hexec⟩ := encodedAs_and_exec_of_form (op := .shf) rfl rfl hi
  rw [← shift16_eq]
  exact ⟨hwords, writesAndJudges_of_exec ((hexec s).trans (opShf_eq a b v s))⟩

/-- Settles O41: both forms are `opNeg`, which writes `neg16`, the difference from 0. -/
theorem negNegatesReg1 : Obligations.NegNegatesReg1 := by
  intro s a b l v i hi
  obtain ⟨hwords, c, hexec⟩ := encodedAs_and_exec_of_form (op := .neg) rfl rfl hi
  rw [← neg16_eq]
  exact ⟨hwords, writesAndJudges_of_exec ((hexec s).trans (opNeg_eq a s))⟩

/-- Settles O42: both forms are `opCmp`, which writes the flags of the difference and nothing else. -/
theorem cmpSetsFlagsOnly : Obligations.CmpSetsFlagsOnly := by
  intro s a b l v i hi
  obtain ⟨hwords, c, hexec⟩ := encodedAs_and_exec_of_form (op := .cmp) rfl rfl hi
  have hnext : exec i s = .next (s.setFlags (s.getReg a - s.opnd b v)) := (hexec s).trans (opCmp_eq a b v s)
  exact ⟨hwords, _, hnext, flagsJudge_flagsOf _, flagsOf_sub_equals_iff _ _, sameRegs_of_regs_eq rfl [],
    sameRam_of_mem_eq rfl, ⟨rfl, rfl⟩, rfl, rfl⟩

/-- Settles O40: the meaning of the opcode, in both forms, is the state it was given. -/
theorem rotChangesNothing : Obligations.RotChangesNothing := by
  intro s a b l v i hi
  obtain ⟨hwords, c, hexec⟩ := encodedAs_and_exec_of_form (op := .rot) rfl rfl hi
  exact ⟨hwords, hexec s⟩

end Sys2Proof.Machine

/-! JMP, DJZ, DLY and the reserved opcodes (46_control_flow_and_delay.md): when a jump is taken, the count of DJZ that
reaches 0, the count of DLY, and the one report of a reserved opcode. -/

namespace Sys2Proof.Machine

/-! ## JMP (R113; decision D2) -/

theorem condTaken_iff (c : BitVec 3) (f : Flags) : condTaken c f = true ↔
    c = 0#3 ∨ (c.getLsbD 2 = true ∧ f.equals = true) ∨ (c.getLsbD 1 = true ∧ f.less = true) ∨
      (c.getLsbD 0 = true ∧ f.greater = true) := by
  simp only [condTaken, Bool.or_eq_true, Bool.and_eq_true, beq_iff_eq, or_assoc]

/-- Settles O43: both forms are `opJmp`, which writes pc when the condition selects it and else changes nothing. -/
theorem jmpTakenBySelectedFlags : Obligations.JmpTakenBySelectedFlags := by
  intro s a b x c v i hi
  have hform : i.fields.opcode.code = 21 ∧ exec i s = opJmp a c v s := by
    simp only [List.mem_cons, List.not_mem_nil, or_false] at hi
    rcases hi with rfl | rfl <;> exact ⟨rfl, rfl⟩
  obtain ⟨hcode, hexec⟩ := hform
  cases htaken : condTaken c s.flags with
  | true =>
    refine ⟨hcode, _, hexec.trans (opJmp_taken a c v s htaken), ?target, sameRegs_setReg s .pc _,
      sameRam_of_mem_eq rfl, ⟨rfl, rfl⟩, rfl, rfl, rfl⟩
    case target =>
      rw [if_pos ((condTaken_iff c s.flags).1 htaken), getReg_of_regs_set rfl]
      exact s.toNat_regPlusImm a v
  | false =>
    refine ⟨hcode, s, hexec.trans (opJmp_notTaken a c v s htaken), ?stays, sameRegs_of_regs_eq rfl _,
      sameRam_of_mem_eq rfl, ⟨rfl, rfl⟩, rfl, rfl, rfl⟩
    case stays => rw [if_neg (mt (condTaken_iff c s.flags).2 (Bool.eq_false_iff.1 htaken))]

/-! ## DJZ (R114; decision D24) -/

/-- The decrement reaches 0 from 1 alone. -/
theorem sub_one_eq_zero_iff (w : Word) : w - 1#16 = 0#16 ↔ w = 1#16 := by
  rw [BitVec.sub_eq_iff_eq_add, BitVec.zero_add]

/-- A target is read after the register write before it: through the written register it sees the new value. -/
theorem State.toNat_regPlusImm_setReg (s : State) (a b : Reg) (w : Word) (v : Int) :
    (((s.setReg a w).regPlusImm b v).toNat : Int) =
      ((if b = a then w.toNat else (s.getReg b).toNat : Nat) + v) % 65536 := by
  rw [State.toNat_regPlusImm, State.setReg_getReg, apply_ite BitVec.toNat]

theorem opDjz_zero (a b : Reg) (v : Int) (s : State) (h : s.getReg a = 1#16) :
    opDjz a b v s =
      .next (((s.setReg a 0#16).setFlags 0#16).setReg .pc ((s.setReg a 0#16).regPlusImm b v)) := by
  have hzero : sub16 (s.getReg a) 1#16 = 0#16 := by rw [sub16_eq, sub_one_eq_zero_iff, h]
  simp only [opDjz, hzero, if_true]
  rfl

theorem opDjz_nonzero (a b : Reg) (v : Int) (s : State) (h : s.getReg a ≠ 1#16) :
    opDjz a b v s = .next ((s.setReg a (s.getReg a - 1#16)).setFlags (s.getReg a - 1#16)) := by
  simp only [opDjz, sub16_eq, sub_one_eq_zero_iff, if_neg h]

/-- Settles O44: both forms are `opDjz`. From 1 it writes reg1, then the flags, then pc, so that a pc that is reg1
ends as the target; from another value it writes reg1 and the flags. -/
theorem djzDecrementsAndJumpsAtZero : Obligations.DjzDecrementsAndJumpsAtZero := by
  intro s a b l v i hi
  obtain ⟨hwords, c, hexec⟩ := encodedAs_and_exec_of_form (op := .djz) rfl rfl hi
  by_cases hone : s.getReg a = 1#16
  case pos =>
    refine ⟨hwords, _, (hexec s).trans (opDjz_zero a b v s hone), ?flags, ?effect⟩
    case flags =>
      rw [(sub_one_eq_zero_iff _).2 hone]
      exact flagsJudge_flagsOf 0#16
    case effect =>
      rw [if_pos hone]
      refine ⟨fun hpc => ?counter, ?target, ?regs, sameRam_of_mem_eq rfl, ⟨rfl, rfl⟩, rfl, rfl⟩
      case counter => rw [State.setReg_getReg, if_neg hpc, State.setFlags_getReg, State.setReg_getReg, if_pos rfl]
      case target =>
        rw [getReg_of_regs_set rfl]
        exact s.toNat_regPlusImm_setReg a b 0#16 v
      case regs => exact ((sameRegs_setReg s a _).mono (by simp)).trans ((sameRegs_setReg _ .pc _).mono (by simp))
  case neg =>
    have hnext := (hexec s).trans (opDjz_nonzero a b v s hone)
    obtain ⟨t, ht, hvalue, hflags, honly⟩ := writesAndJudges_of_exec hnext
    refine ⟨hwords, t, ht, hflags, ?effect⟩
    rw [if_neg hone]
    exact ⟨hvalue, honly⟩

/-! ## DLY (R115; decision D8) -/

/-- Settles O45: both forms are `opDly`, whose count is the unsigned operand. -/
theorem dlySetsPendingDelay : Obligations.DlySetsPendingDelay := by
  intro s a b l v i hi
  obtain ⟨hwords, c, hexec⟩ := encodedAs_and_exec_of_form (op := .dly) rfl rfl hi
  have hcount : ((s.opnd b v).toNat : Int) = ((s.getReg b).toNat + v) % 65536 := s.toNat_regPlusImm b v
  rw [← hcount]
  rcases Nat.eq_zero_or_pos (s.opnd b v).toNat with hzero | hpos
  · refine ⟨hwords, s, (hexec s).trans (opDly_zero b v s hzero), ?kept, sameRegs_of_regs_eq rfl [],
      sameRam_of_mem_eq rfl, ⟨rfl, rfl⟩, rfl, rfl⟩
    case kept => rw [if_pos (Int.natCast_eq_zero.2 hzero)]
  · refine ⟨hwords, _, (hexec s).trans (opDly_pos b v s hpos), ?overwritten, sameRegs_of_regs_eq rfl [],
      sameRam_of_mem_eq rfl, ⟨rfl, rfl⟩, rfl, rfl⟩
    case overwritten =>
      rw [if_neg (Int.natCast_ne_zero.2 hpos.ne'), State.setDelay_delay]
      exact Int.natCast_pred_of_pos hpos

/-! ## The reserved opcodes (R118; decision D26) -/

/-- A TEENY instruction keeps its immediate in low-4 (30_encoding.md R52). -/
theorem fields_low4_of_teeny {i : Instr} (h : i.fields.teeny = true) :
    i.fields.low4 = BitVec.ofInt 4 i.fields.imm := by
  revert h
  cases i <;> simp [Instr.fields]

/-- The words of every instruction, in either form, stand for its own fields. -/
theorem encodedAs_fields (i : Instr) :
    EncodedAs i i.fields.opcode.code i.fields.reg1 i.fields.reg2 i.fields.imm := by
  cases hteeny : i.fields.teeny with
  | true => exact encodedAs_of_teeny_fields (by rw [← hteeny, ← fields_low4_of_teeny hteeny])
  | false => exact encodedAs_of_long_fields (l := i.fields.low4) (by rw [← hteeny])

/-- What an instruction whose answer is one report does to the state. -/
theorem reportsOnly_of_exec {i : Instr} {s : State} {code : BitVec 5} (h : exec i s = opReserved code s) :
    ∃ t, exec i s = .next t ∧ t.events = Event.report code :: s.events ∧ t.flags = s.flags ∧ t.delay = s.delay ∧
      SameRegs s t [] ∧ SameRam s t ∧ SameHidden s t :=
  ⟨s.report code, h, rfl, rfl, rfl, sameRegs_of_regs_eq rfl [], sameRam_of_mem_eq rfl, rfl, rfl⟩

/-- Settles O46: each row is a reserved opcode with its own code, whose meaning is `opReserved` of that code. -/
theorem reservedOpcodesReportOnly : Obligations.ReservedOpcodesReportOnly := by
  intro s a b l v p hp
  have hfields : p.1.fields.opcode.isReserved = true ∧ p.1.fields.opcode.code = p.2 ∧ p.1.fields.reg1 = a ∧
      p.1.fields.reg2 = b ∧ p.1.fields.imm = v := by
    fin_cases hp <;> exact ⟨rfl, rfl, rfl, rfl, rfl⟩
  obtain ⟨hreserved, hcode, rfl, rfl, rfl⟩ := hfields
  rw [← hcode]
  exact ⟨encodedAs_fields p.1, reportsOnly_of_exec (exec_reserved hreserved s)⟩

end Sys2Proof.Machine

/-! The assembler's encoder (47_assembler_encoder.md): the instruction a line stands for (R138 to R146), and the
addresses of a pass (R126, R130 to R136, R149). -/

namespace Sys2Proof.Machine

/-! ## The form of an instruction line (R140; decision D20) -/

theorem chooseForm_of_fits (op : Opcode) (a b : Reg) {v : Int} (h : fitsTeeny v = true) :
    chooseForm op a b v = Instr.ofTeeny op a b (BitVec.ofInt 4 v) := if_pos h

theorem chooseForm_of_not_fits (op : Opcode) (a b : Reg) {v : Int} (h : fitsTeeny v = false) :
    chooseForm op a b v = Instr.ofLong op a b 0#4 (trunc16 v) := if_neg (Bool.eq_false_iff.1 h)

/-- The fields of an opcode's line: TEENY with the value itself, or LONG with the value's second Word. -/
theorem chooseForm_fields (op : Opcode) (a b : Reg) (v : Int) :
    (chooseForm op a b v).fields = if fitsTeeny v then ⟨op, true, a, b, BitVec.ofInt 4 v, v⟩
      else ⟨op, false, a, b, 0#4, imm16 (trunc16 v)⟩ := by
  cases h : fitsTeeny v with
  | true => rw [chooseForm_of_fits op a b h, Instr.ofTeeny_fields, sext4_ofInt h]; rfl
  | false => rw [chooseForm_of_not_fits op a b h, Instr.ofLong_fields]; rfl

theorem chooseForm_wellFormed (op : Opcode) (a b : Reg) (v : Int) : (chooseForm op a b v).wellFormed = true := by
  cases h : fitsTeeny v with
  | true => rw [chooseForm_of_fits op a b h, Instr.ofTeeny_wellFormed]
  | false => rw [chooseForm_of_not_fits op a b h, Instr.ofLong_wellFormed]

@[simp] theorem chooseForm_opcode (op : Opcode) (a b : Reg) (v : Int) : (chooseForm op a b v).fields.opcode = op := by
  rw [chooseForm_fields]; split <;> rfl

@[simp] theorem chooseForm_teeny (op : Opcode) (a b : Reg) (v : Int) :
    (chooseForm op a b v).fields.teeny = fitsTeeny v := by
  rw [chooseForm_fields]; split <;> simp_all

theorem hasRegs_chooseForm (op : Opcode) (a b : Reg) (v : Int) : HasRegs (chooseForm op a b v) a b := by
  rw [HasRegs, chooseForm_fields]; split <;> exact ⟨rfl, rfl⟩

/-- The immediate stands for the value modulo 65536, in either form. -/
theorem chooseForm_trunc16_imm (op : Opcode) (a b : Reg) (v : Int) :
    trunc16 (chooseForm op a b v).fields.imm = trunc16 v := by
  rw [chooseForm_fields]
  split
  · rfl
  · exact trunc16_imm16 _

theorem chooseForm_low4_of_long {op : Opcode} {a b : Reg} {v : Int} (h : (chooseForm op a b v).fields.teeny = false) :
    (chooseForm op a b v).fields.low4 = 0#4 := by
  rw [chooseForm_teeny] at h
  rw [chooseForm_fields, h]; rfl

/-! ## The registers of an instruction line (R139; decisions D18, D19) -/

theorem hasRegs_lineInstr_op (op : Opcode) (regs : List Reg) (first : Bool) (v : Int) :
    HasRegs (lineInstr (.op op) regs first v) (placeRegs (.op op) regs first).1 (placeRegs (.op op) regs first).2 :=
  hasRegs_chooseForm _ _ _ _

/-- A single register is reg2 of `psh`, `cal` and `dly`. -/
theorem placeRegs_reg2_only {op : Opcode} (h : op = .psh ∨ op = .cal ∨ op = .dly) (r : Reg) (first : Bool) :
    placeRegs (.op op) [r] first = (.rz, r) := by
  rcases h with rfl | rfl | rfl <;> rfl

/-- A single register is reg1 of every opcode but `psh`, `cal`, `dly` and `str`. -/
theorem placeRegs_reg1_only {op : Opcode} (h : op ≠ .psh ∧ op ≠ .cal ∧ op ≠ .dly ∧ op ≠ .str) (r : Reg)
    (first : Bool) : placeRegs (.op op) [r] first = (r, .rz) := by
  obtain ⟨hpsh, hcal, hdly, hstr⟩ := h
  cases op with
  | psh => exact absurd rfl hpsh
  | cal => exact absurd rfl hcal
  | dly => exact absurd rfl hdly
  | str => exact absurd rfl hstr
  | _ => rfl

/-! ## Jumps (R141, R143; decision D15) -/

/-- The LONG jump with the condition bits in low-4. -/
theorem ofLong_jmp (a b : Reg) (cond : BitVec 3) (w : Word) :
    Instr.ofLong .jmp a b (0#1 ++ cond) w = .jmpLong a b false cond (imm16 w) := by
  have hbits : (0#1 ++ cond).msb = false ∧ (0#1 ++ cond).extractLsb' 0 3 = cond := by
    revert cond; decide
  rw [Instr.ofLong, hbits.1, hbits.2]

/-- A jump line is LONG whatever its value, with its register, or register-zero, as reg1. -/
theorem lineInstr_jump (cond : BitVec 3) {r : Reg} {regs : List Reg} (h : regs = [] ∨ regs = [r]) (first : Bool)
    (v : Int) : lineInstr (.jump cond) regs first v =
      Instr.ofLong .jmp (regs.headD .rz) .rz (0#1 ++ cond) (trunc16 v) := by
  rcases h with rfl | rfl <;> rfl

theorem lineInstr_jump_eq_jmpLong (cond : BitVec 3) {r : Reg} {regs : List Reg} (h : regs = [] ∨ regs = [r])
    (first : Bool) (v : Int) :
    lineInstr (.jump cond) regs first v = .jmpLong (regs.headD .rz) .rz false cond (imm16 (trunc16 v)) := by
  rw [lineInstr_jump cond h, ofLong_jmp]

/-- The two Words of a jump line: its fields, then its target. -/
theorem encode_lineInstr_jump (cond : BitVec 3) {r : Reg} {regs : List Reg} (h : regs = [] ∨ regs = [r])
    (first : Bool) (v : Int) : encode (lineInstr (.jump cond) regs first v) =
      [wordOfFields ⟨.jmp, false, regs.headD .rz, .rz, 0#1 ++ cond, imm16 (trunc16 v)⟩, trunc16 v] := by
  have hfields := Instr.ofLong_fields .jmp (regs.headD .rz) .rz (0#1 ++ cond) (trunc16 v)
  rw [lineInstr_jump cond h, encode_of_long (by rw [hfields]), hfields, trunc16_imm16]

/-! ## What instruction lines assemble to -/

/-- Settles O51: an opcode's line is `chooseForm` of the registers that `placeRegs` places; a jump's is always the
LONG form. -/
theorem asmInstructionFieldsAndForm : Obligations.AsmInstructionFieldsAndForm := by
  refine ⟨fun p hp => ⟨?mnemonic, ?form, ?noRegister, ?oneRegister, ?twoRegisters⟩, ?jump⟩
  case mnemonic => revert p; decide
  case form =>
    intro regs first v
    refine ⟨chooseForm_wellFormed _ _ _ v, chooseForm_opcode _ _ _ v, chooseForm_trunc16_imm _ _ _ v, ?teeny,
      chooseForm_low4_of_long⟩
    case teeny => exact (Bool.eq_iff_iff.1 (chooseForm_teeny _ _ _ v)).trans (fitsTeeny_iff v)
  case noRegister => exact hasRegs_lineInstr_op p.2 []
  case oneRegister =>
    intro r first v
    have hplaced := hasRegs_lineInstr_op p.2 [r] first v
    refine ⟨fun h => ?reg2, fun h => ?str, fun h => ?reg1⟩
    case reg2 => rwa [placeRegs_reg2_only h] at hplaced
    case str => rw [h]; exact ⟨hasRegs_lineInstr_op .str [r] true v, hasRegs_lineInstr_op .str [r] false v⟩
    case reg1 => rwa [placeRegs_reg1_only h] at hplaced
  case twoRegisters => exact fun r r' => hasRegs_lineInstr_op p.2 [r, r']
  case jump =>
    intro cond r regs first v h
    refine ⟨_, lineInstr_jump_eq_jmpLong cond h first v, ?_, trunc16_imm16 _⟩
    rw [lineInstr_jump cond h, Instr.ofLong_wellFormed]

/-- The first Word of a jump without a register, whatever its target. -/
theorem wordOfFields_jmp (c : BitVec 3) (target : Int) :
    wordOfFields ⟨.jmp, false, .rz, .rz, 0#1 ++ c, target⟩ = 0xA920#16 + c.zeroExtend 16 := by
  have hbits : wordOfFields ⟨.jmp, false, .rz, .rz, 0#1 ++ c, 0⟩ = 0xA920#16 + c.zeroExtend 16 := by
    revert c; decide
  exact hbits

/-- Settles O52: `ret`, `inc` and `dec` are TEENY instructions of fixed fields; a jump's first Word is that of
condition 0 plus the condition bits. -/
theorem asmPseudoInstructionWords : Obligations.AsmPseudoInstructionWords := by
  refine ⟨rfl, rfl, rfl, by decide, fun first v => ⟨?ret, fun c => ?jumpWords, fun c r => ?jumpRegister,
    fun r => ⟨rfl, rfl⟩⟩⟩
  case ret =>
    have hpop : lineInstr .ret [] first v = .popTeeny .pc .pc 0 := rfl
    rw [hpop]
    decide
  case jumpWords =>
    rw [encode_lineInstr_jump (r := .rz) c (.inl rfl), List.headD_nil, wordOfFields_jmp]
  case jumpRegister => exact lineInstr_jump_eq_jmpLong c (.inr rfl) first v

/-! ## Lines in sequence -/

/-- What `passLine_effect` says of one line holds of any lines in sequence. -/
theorem foldl_passLine_effect (ls : List Line) (p : PassState) :
    ∃ ws, (ls.foldl passLine p).out = p.out ++ ws ∧ (ls.foldl passLine p).addr = p.addr + ws.length ∧
      (ls.foldl passLine p).tables.prevVars = p.tables.prevVars ∧
      (ls.foldl passLine p).tables.prevLabels = p.tables.prevLabels ∧
      (p.unstable = true → (ls.foldl passLine p).unstable = true) := by
  induction ls generalizing p with
  | nil => exact ⟨[], (List.append_nil _).symm, rfl, rfl, rfl, id⟩
  | cons l ls ih =>
    obtain ⟨ws, hout, haddr, hvars, hlabels, hunstable⟩ := passLine_effect p l
    obtain ⟨ws', hout', haddr', hvars', hlabels', hunstable'⟩ := ih (passLine p l)
    refine ⟨ws ++ ws', ?out, ?addr, hvars'.trans hvars, hlabels'.trans hlabels, fun h => hunstable' (hunstable h)⟩
    case out => rw [List.foldl_cons, hout', hout, List.append_assoc]
    case addr => rw [List.foldl_cons, haddr', haddr, List.length_append, Nat.add_assoc]

theorem foldl_passLine_out (ls : List Line) (p : PassState) : ∃ ws, (ls.foldl passLine p).out = p.out ++ ws :=
  (foldl_passLine_effect ls p).imp fun _ h => h.1

/-- A stable end had a stable beginning. -/
theorem stable_of_foldl_passLine {ls : List Line} {p : PassState} (h : (ls.foldl passLine p).unstable = false) :
    p.unstable = false := by
  obtain ⟨_, _, _, _, _, hunstable⟩ := foldl_passLine_effect ls p
  exact Bool.eq_false_iff.2 fun hp => by simp [hunstable hp] at h

/-- A pass starts at address 0 with no Words and the tables of the pass before. -/
theorem runPass_effect (prevVars prevLabels : AddrTable) (lines : List Line) :
    (runPass prevVars prevLabels lines).addr = (runPass prevVars prevLabels lines).out.length ∧
    (runPass prevVars prevLabels lines).tables.prevVars = prevVars ∧
    (runPass prevVars prevLabels lines).tables.prevLabels = prevLabels := by
  obtain ⟨ws, hout, haddr, hvars, hlabels, _⟩ :=
    foldl_passLine_effect lines ⟨⟨[], [], [], prevVars, prevLabels⟩, 0, [], false⟩
  refine ⟨?_, hvars, hlabels⟩
  rw [runPass, haddr, hout, Nat.zero_add, List.nil_append]

@[simp] theorem runPass_prevVars (prevVars prevLabels : AddrTable) (lines : List Line) :
    (runPass prevVars prevLabels lines).tables.prevVars = prevVars := (runPass_effect _ _ _).2.1

@[simp] theorem runPass_prevLabels (prevVars prevLabels : AddrTable) (lines : List Line) :
    (runPass prevVars prevLabels lines).tables.prevLabels = prevLabels := (runPass_effect _ _ _).2.2

/-- Settles O53: every line moves the address counter by the number of Words it appends. -/
theorem asmAddressCounterCountsWords : Obligations.AsmAddressCounterCountsWords :=
  fun prevVars prevLabels lines => (runPass_effect prevVars prevLabels lines).1

/-! ## A stable pass keeps the addresses (R136; decision D16) -/

/-- Unless the pass is unstable, its labels and variables have the addresses of the pass before. -/
def PassState.KeepsAddresses (p : PassState) : Prop :=
  p.unstable = false → ∀ (name : Name) (addr : Nat),
    (p.tables.labels.lookup name = some addr → p.tables.prevLabels.lookup name = some addr) ∧
    (p.tables.vars.lookup name = some addr → p.tables.prevVars.lookup name = some addr)

/-- An entry put in front of a table of addresses the pass before gave keeps it one, when the pass before gave the
entry's too. -/
theorem lookup_cons_keeps {table prev : AddrTable} {entry : Name} {place : Nat}
    (hentry : prev.lookup entry = some place)
    (htable : ∀ name addr, table.lookup name = some addr → prev.lookup name = some addr) (name : Name) (addr : Nat)
    (h : ((entry, place) :: table).lookup name = some addr) : prev.lookup name = some addr := by
  rw [List.lookup_cons] at h
  split at h
  · rename_i heq
    rw [eq_of_beq heq, hentry, h]
  · exact htable name addr h

theorem PassState.reserveVar_keepsAddresses {p : PassState} (hp : p.KeepsAddresses) (entry : Name) :
    (p.reserveVar entry).KeepsAddresses := by
  rcases p.reserveVar_cases entry with h | ⟨-, h⟩
  · rwa [h]
  · rw [h]
    intro hstable name addr
    obtain ⟨hbefore, hsame⟩ := Bool.or_eq_false_iff.1 hstable
    exact ⟨(hp hbefore name addr).1, lookup_cons_keeps (bne_eq_false_iff_eq.1 hsame)
      (fun n a => (hp hbefore n a).2) name addr⟩

theorem passLine_keepsAddresses {p : PassState} (hp : p.KeepsAddresses) (l : Line) :
    (passLine p l).KeepsAddresses := by
  cases l with
  | blank | const | raw | instr => exact hp
  | var entry value neg => exact PassState.reserveVar_keepsAddresses hp entry
  | label entry =>
    intro hstable name addr
    obtain ⟨hbefore, hsame⟩ := Bool.or_eq_false_iff.1 hstable
    exact ⟨lookup_cons_keeps (bne_eq_false_iff_eq.1 hsame) (fun n a => (hp hbefore n a).1) name addr,
      (hp hbefore name addr).2⟩

theorem runPass_keepsAddresses (prevVars prevLabels : AddrTable) (lines : List Line) :
    (runPass prevVars prevLabels lines).KeepsAddresses :=
  List.foldlRecOn lines passLine (fun _ _ _ => ⟨nofun, nofun⟩) fun _ hp l _ => passLine_keepsAddresses hp l

/-- Settles O54: every line keeps `KeepsAddresses`, and the tables of the pass before stay what they were. -/
theorem asmStablePassKeepsAddresses : Obligations.AsmStablePassKeepsAddresses := by
  intro prevVars prevLabels lines name addr hstable
  have hkeeps := runPass_keepsAddresses prevVars prevLabels lines hstable name addr
  rwa [runPass_prevLabels, runPass_prevVars] at hkeeps

/-! ## A reference to a label (R126, R149) -/

/-- The pass has made the name no constant and no variable. -/
def PassState.NoValue (p : PassState) (name : Name) : Prop :=
  p.tables.consts.lookup name = none ∧ p.tables.vars.lookup name = none

theorem lookup_cons_eq_none {β : Type} {entry name : Name} {b : β} {table : List (Name × β)} (hne : entry ≠ name)
    (h : table.lookup name = none) : ((entry, b) :: table).lookup name = none := by
  rw [List.lookup_cons, beq_false_of_ne hne.symm]
  exact h

/-- A line makes only its `valueName` a constant or a variable. -/
theorem passLine_noValue {p : PassState} {name : Name} (hp : p.NoValue name) {l : Line}
    (hl : l.valueName ≠ some name) : (passLine p l).NoValue name := by
  obtain ⟨hconsts, hvars⟩ := hp
  cases l with
  | blank | label | raw | instr => exact ⟨hconsts, hvars⟩
  | const entry value neg => exact ⟨lookup_cons_eq_none (fun h => hl (congrArg some h)) hconsts, hvars⟩
  | var entry value neg =>
    show (p.reserveVar entry).NoValue name
    rcases p.reserveVar_cases entry with h | ⟨-, h⟩
    · rw [h]; exact ⟨hconsts, hvars⟩
    · rw [h]; exact ⟨hconsts, lookup_cons_eq_none (fun h => hl (congrArg some h)) hvars⟩

theorem runPass_noValue (prevVars prevLabels : AddrTable) {lines : List Line} {name : Name}
    (h : ∀ l ∈ lines, l.valueName ≠ some name) : (runPass prevVars prevLabels lines).NoValue name :=
  List.foldlRecOn (motive := (PassState.NoValue · name)) lines passLine ⟨rfl, rfl⟩ fun _ hp l hl =>
    passLine_noValue hp (h l hl)

/-- A name that is a label of the pass before, and no constant and no variable, resolves to that label's address,
when this pass has not given it another (R126). -/
theorem Tables.resolve_label {t : Tables} {name : Name} {addr : Nat} (hconsts : t.consts.lookup name = none)
    (hvars : t.vars.lookup name = none) (hprevVars : t.prevVars.lookup name = none)
    (hlabels : ∀ a, t.labels.lookup name = some a → a = addr) (hprevLabels : t.prevLabels.lookup name = some addr) :
    t.resolve name = some (addr : Int) := by
  have hlookup : (t.labels.lookup name).or (t.prevLabels.lookup name) = some addr := by
    cases h : t.labels.lookup name with
    | none => rw [hprevLabels, Option.none_or]
    | some a => rw [hlabels a h, Option.some_or]
  simp only [Tables.resolve, hconsts, hvars, hprevVars, Option.none_or, hlookup]

theorem zeroIfNone_negateIf_some (neg : Bool) (v : Int) :
    zeroIfNone (negateIf neg (some v)) = if neg then -v else v := by
  cases neg <;> rfl

/-- In a pass that is stable so far, a name the pass before made a label resolves to that label's address. -/
theorem runPass_resolve_label {prevVars prevLabels : AddrTable} {lines : List Line} {name : Name} {addr : Nat}
    (hstable : (runPass prevVars prevLabels lines).unstable = false)
    (hvalue : ∀ l ∈ lines, l.valueName ≠ some name) (hprevVars : prevVars.lookup name = none)
    (hprevLabels : prevLabels.lookup name = some addr) :
    (runPass prevVars prevLabels lines).tables.resolve name = some (addr : Int) := by
  obtain ⟨hconsts, hvars⟩ := runPass_noValue prevVars prevLabels hvalue
  refine Tables.resolve_label hconsts hvars (by rwa [runPass_prevVars]) (fun a ha => ?_)
    (by rwa [runPass_prevLabels])
  have hprev := (asmStablePassKeepsAddresses prevVars prevLabels lines name a hstable).1 ha
  exact Option.some.inj (hprev.symm.trans hprevLabels)

/-- A jump line appends its first Word and the address its token resolves to, negated with the line. -/
theorem passLine_jump_out {p : PassState} {name : Name} {addr : Nat}
    (hresolve : p.tables.resolve name = some (addr : Int)) (cond : BitVec 3) {r : Reg} {regs : List Reg}
    (hregs : regs = [] ∨ regs = [r]) (neg first : Bool) :
    ∃ target, (passLine p (.instr (.jump cond) regs (some name) neg first)).out =
      p.out ++ [wordOfFields ⟨.jmp, false, regs.headD .rz, .rz, 0#1 ++ cond, target⟩,
        trunc16 (if neg then -(addr : Int) else addr)] := by
  refine ⟨imm16 (trunc16 (if neg then -(addr : Int) else addr)), ?_⟩
  simp only [passLine, PassState.emit_out, hresolve, zeroIfNone_negateIf_some]
  rw [encode_lineInstr_jump cond hregs]

/-- Settles O55: the pass is stable at the jump too, so that the address the pass before gave the label is both what
the jump's token resolves to and what this pass ends with; the lines after the jump only append Words. -/
theorem asmForwardReferenceResolves : Obligations.AsmForwardReferenceResolves := by
  rintro prevVars prevLabels before rest cond r regs name neg first addr pass rfl hregs hprevVars hbefore hstable hlabel
  have hprevLabels := (asmStablePassKeepsAddresses _ _ _ name addr hstable).1 hlabel
  rw [runPass_append] at hstable ⊢
  have hresolve := runPass_resolve_label (stable_of_foldl_passLine hstable) hbefore hprevVars hprevLabels
  obtain ⟨target, hjump⟩ := passLine_jump_out hresolve cond hregs neg first
  obtain ⟨ws, hrest⟩ := foldl_passLine_out rest
    (passLine (runPass prevVars prevLabels before) (.instr (.jump cond) regs (some name) neg first))
  rw [List.foldl_cons, hrest, hjump, List.append_assoc]
  exact ⟨wordOfFields ⟨.jmp, false, regs.headD .rz, .rz, 0#1 ++ cond, target⟩, by simp, by simp,
    opcodeField_wordOfFields _, teenyField_wordOfFields _, reg1Field_wordOfFields _, reg2Field_wordOfFields _,
    low4Field_wordOfFields _⟩

end Sys2Proof.Machine

/-! Decoding what was encoded (30_encoding.md sections 1 to 3), and the bytes of an image (20_memory.md R33; decision
D12). -/

namespace Sys2Proof

/-! ## A well-formed instruction is the one its fields make -/

theorem Instr.wellFormed_iff (i : Instr) : i.wellFormed = true ↔ i.immFits = true ∧ i.condAgrees = true := by
  rw [wellFormed, Bool.and_eq_true]

theorem Instr.fitsTeeny_of_wellFormed {i : Instr} (h : i.wellFormed = true) (hform : i.fields.teeny = true) :
    fitsTeeny i.fields.imm = true := by
  obtain ⟨hfits, -⟩ := i.wellFormed_iff.1 h
  rwa [immFits, if_pos hform] at hfits

theorem Instr.fitsLong_of_wellFormed {i : Instr} (h : i.wellFormed = true) (hform : i.fields.teeny = false) :
    fitsLong i.fields.imm = true := by
  obtain ⟨hfits, -⟩ := i.wellFormed_iff.1 h
  rwa [immFits, if_neg (Bool.eq_false_iff.1 hform)] at hfits

/-- A TEENY instruction's immediate is its low-4 field, sign-extended (R52). -/
theorem Instr.sext4_low4 {i : Instr} (h : i.wellFormed = true) (hform : i.fields.teeny = true) :
    sext4 i.fields.low4 = i.fields.imm := by
  rw [Machine.fields_low4_of_teeny hform, sext4_ofInt (fitsTeeny_of_wellFormed h hform)]

/-- The fields of a TEENY instruction determine it; a jump's condition bits are in its immediate (R55). -/
theorem Instr.ofTeeny_own_fields {i : Instr} (h : i.wellFormed = true) (hform : i.fields.teeny = true) :
    Instr.ofTeeny i.fields.opcode i.fields.reg1 i.fields.reg2 i.fields.low4 = i := by
  have himm := sext4_low4 h hform
  cases i with
  | jmpTeeny a b cond v =>
    have hcond : cond = BitVec.ofInt 3 v := beq_iff_eq.1 ((wellFormed_iff _).1 h).2
    simp only [fields] at himm
    simp only [fields, ofTeeny, ← ofInt3_sext4, himm, hcond]
  | setLong | lodLong | strLong | pshLong | popLong | btsLong | btcLong | btfLong | calLong | addLong | subLong
  | mpyLong | divLong | modLong | andLong | orLong | xorLong | shfLong | rotLong | negLong | cmpLong | jmpLong
  | djzLong | dlyLong | reserved24Long | reserved25Long | reserved26Long | reserved27Long | reserved28Long
  | reserved29Long | reserved30Long | reserved31Long => cases hform
  | _ =>
    simp only [fields] at himm
    simp only [fields, ofTeeny, himm]

/-! The low-4 field of a LONG jump is its ignored bit 3 and its condition bits (R54, R57). -/

theorem msb_ofBool_append (x : Bool) (c : BitVec 3) : (BitVec.ofBool x ++ c).msb = x := by
  revert x c; decide

theorem extractLsb'_ofBool_append (x : Bool) (c : BitVec 3) : (BitVec.ofBool x ++ c).extractLsb' 0 3 = c := by
  revert x c; decide

/-- The fields of a LONG instruction and its second Word determine it. -/
theorem Instr.ofLong_own_fields {i : Instr} (h : i.wellFormed = true) (hform : i.fields.teeny = false) :
    Instr.ofLong i.fields.opcode i.fields.reg1 i.fields.reg2 i.fields.low4 (trunc16 i.fields.imm) = i := by
  have himm := imm16_trunc16 (fitsLong_of_wellFormed h hform)
  cases i with
  | jmpLong a b x cond v =>
    simp only [fields] at himm
    simp only [fields, ofLong, himm, msb_ofBool_append, extractLsb'_ofBool_append]
  | setTeeny | lodTeeny | strTeeny | pshTeeny | popTeeny | btsTeeny | btcTeeny | btfTeeny | calTeeny | addTeeny
  | subTeeny | mpyTeeny | divTeeny | modTeeny | andTeeny | orTeeny | xorTeeny | shfTeeny | rotTeeny | negTeeny
  | cmpTeeny | jmpTeeny | djzTeeny | dlyTeeny | reserved24Teeny | reserved25Teeny | reserved26Teeny
  | reserved27Teeny | reserved28Teeny | reserved29Teeny | reserved30Teeny | reserved31Teeny => cases hform
  | _ =>
    simp only [fields] at himm
    simp only [fields, ofLong, himm]

/-! ## The decoder on an encoded instruction -/

theorem decode_teeny {w : Word} (h : teenyField w = true) (rest : List Word) :
    decode (w :: rest) = .ok (decodeTeeny w, rest) := if_pos h

theorem decode_long {w1 : Word} (h : teenyField w1 = false) (w2 : Word) (rest : List Word) :
    decode (w1 :: w2 :: rest) = .ok (decodeLong w1 w2, rest) := if_neg (Bool.eq_false_iff.1 h)

theorem decodeTeeny_wordOfFields (f : Fields) :
    decodeTeeny (wordOfFields f) = Instr.ofTeeny f.opcode f.reg1 f.reg2 f.low4 := by simp [decodeTeeny]

theorem decodeLong_wordOfFields (f : Fields) (w2 : Word) :
    decodeLong (wordOfFields f) w2 = Instr.ofLong f.opcode f.reg1 f.reg2 f.low4 w2 := by simp [decodeLong]

/-- Settles O4: the first Word gives back the fields and, with the second Word of a LONG form, the fields give back
the instruction. -/
theorem decodeOfEncodeIsIdentity : Obligations.DecodeOfEncodeIsIdentity := by
  intro i rest h
  cases hform : i.fields.teeny with
  | true =>
    rw [encode_of_teeny hform, List.singleton_append, decode_teeny (by simpa using hform),
      decodeTeeny_wordOfFields, Instr.ofTeeny_own_fields h hform]
  | false =>
    rw [encode_of_long hform, List.cons_append, List.singleton_append, decode_long (by simpa using hform),
      decodeLong_wordOfFields, Instr.ofLong_own_fields h hform]

/-- Settles O7: each of the ten Words is taken apart by evaluation. -/
theorem specWordsDecodeAsWritten : Obligations.SpecWordsDecodeAsWritten := by
  unfold Obligations.SpecWordsDecodeAsWritten
  decide

/-! ## The bytes of an image -/

theorem wordsOfBytes_bytesOfWords (ws : List Word) : wordsOfBytes (bytesOfWords ws) = some ws := by
  induction ws with
  | nil => rfl
  | cons w ws ih =>
    rw [bytesOfWords, wordsOfBytes, ih, Option.map_some, Machine.Word.ofBytes_low_high]

theorem length_bytesOfWords (ws : List Word) : (bytesOfWords ws).length = 2 * ws.length := by
  induction ws with
  | nil => rfl
  | cons w ws ih => simp only [bytesOfWords, List.length_cons, ih]; omega

/-- Word `k` is byte `2k` and byte `2k + 1`. -/
theorem bytesOfWords_getElem? (ws : List Word) {k : Nat} (hk : k < ws.length) :
    (bytesOfWords ws)[2 * k]? = some (Word.low ws[k]) ∧ (bytesOfWords ws)[2 * k + 1]? = some (Word.high ws[k]) := by
  induction ws generalizing k with
  | nil => exact absurd hk (Nat.not_lt_zero k)
  | cons w ws ih =>
    cases k with
    | zero => exact ⟨rfl, rfl⟩
    -- the bytes of the Words after `w` start two bytes further on
    | succ k => exact ih (Nat.lt_of_succ_lt_succ hk)

theorem wordsOfBytes_of_odd {bs : List Byte} (h : bs.length % 2 = 1) : wordsOfBytes bs = none := by
  induction bs using wordsOfBytes.induct with
  | case1 => cases h
  | case2 b => rfl
  | case3 lo hi rest ih =>
    have hrest : rest.length % 2 = 1 := by simpa only [List.length_cons, Nat.add_assoc, Nat.add_mod_right] using h
    rw [wordsOfBytes, ih hrest, Option.map_none]

/-- Settles O8: reading the bytes undoes writing them, each Word is two bytes with the low one first, and an odd
number of bytes ends inside a Word. -/
theorem imageBytesRoundTrip : Obligations.ImageBytesRoundTrip :=
  ⟨fun ws => ⟨wordsOfBytes_bytesOfWords ws, length_bytesOfWords ws, fun _ hk => bytesOfWords_getElem? ws hk⟩,
    fun _ h => wordsOfBytes_of_odd h⟩

end Sys2Proof

/-! What an instruction may write: registers (10_state.md R15), flags (R16) and RAM (20_memory.md R41). -/

namespace Sys2Proof.Machine

/-! ## Flags -/

/-- The flags an opcode writes are those of some result, and only the opcodes of R16 write them. -/
theorem opcodeMeaning_flags {op : Opcode} {a b : Reg} {c : BitVec 3} {v : Int} {s t : State}
    (h : opcodeMeaning op a b c v s = .next t) :
    t.flags = s.flags ∨ (op.writesFlags = true ∧ ∃ w, FlagsJudge t.flags w) := by
  cases op with
  | set | psh | pop | cal | rot | reserved24 | reserved25 | reserved26 | reserved27 | reserved28 | reserved29
  | reserved30 | reserved31 => cases h; exact .inl rfl
  | lod => rcases opLod_cases h with ⟨-, rfl⟩ | ⟨-, rfl⟩ <;> exact .inl rfl
  | str => rcases opStr_cases h with ⟨-, rfl⟩ | ⟨-, rfl⟩ <;> exact .inl rfl
  | jmp => rcases opJmp_cases h with ⟨-, rfl⟩ | ⟨-, rfl⟩ <;> exact .inl rfl
  | dly => rcases opDly_cases h with ⟨-, rfl⟩ | ⟨-, rfl⟩ <;> exact .inl rfl
  | add | sub | mpy | and | or | xor | shf | neg | cmp =>
    cases h
    exact .inr ⟨rfl, _, flagsJudge_flagsOf _⟩
  | div | mod =>
    rcases opDivide_cases h with ⟨-, rfl⟩ | ⟨-, rfl⟩
    · exact .inl rfl
    · exact .inr ⟨rfl, _, flagsJudge_flagsOf _⟩
  | bts | btc | btf =>
    rcases opBit_cases h with ⟨-, rfl⟩ | ⟨-, rfl⟩
    · exact .inr ⟨rfl, _, flagsJudge_flagsOf _⟩
    · exact .inl rfl
  | djz => rcases opDjz_cases h with ⟨-, rfl⟩ | ⟨-, rfl⟩ <;> exact .inr ⟨rfl, _, flagsJudge_flagsOf _⟩

/-- Settles O22: every instruction is the meaning of its opcode, and `opcodeMeaning_flags` says what that writes. -/
theorem onlyListedOpcodesWriteFlags : Obligations.OnlyListedOpcodesWriteFlags := by
  intro i s t h
  obtain ⟨c, hexec⟩ := exec_eq_opcodeMeaning i
  exact opcodeMeaning_flags ((hexec s).symm.trans h)

/-! ## RAM -/

theorem sameRamBut_of_writeWord {s t : State} {addr : Nat} {w : Word} (h : t.mem = Memory.writeWord s.mem addr w) :
    SameRamBut s t addr := by
  intro k h0 h1
  rw [h, Memory.readByte_writeWord_ne _ _ _ h0 h1]

/-- Settles O23: an instruction does to RAM what `Instr.ramStore` names, which is a Word for PSH and CAL, a Word or
nothing for STR, and nothing for the others. -/
theorem onlyStrPshCalChangeRam : Obligations.OnlyStrPshCalChangeRam := by
  intro i s t h
  obtain ⟨u, hu, hmem, -⟩ := exec_mem i s
  cases hu.symm.trans h
  cases hop : i.fields.opcode with
  | str =>
    rcases Nat.lt_or_ge (s.regPlusImm i.fields.reg1 i.fields.imm).toNat 0x8000 with hram | hbus
    · simp only [Instr.ramStore, hop, ramAddr_of_lt hram, Option.map_some, Memory.afterStore_some] at hmem
      exact .inr ⟨rfl, fun _ => ⟨hram, sameRamBut_of_writeWord hmem⟩, fun hne => absurd rfl hne⟩
    · simp only [Instr.ramStore, hop, ramAddr_of_ge hbus, Option.map_none, Memory.afterStore_none] at hmem
      exact .inl (sameRam_of_mem_eq hmem)
  | psh | cal =>
    simp only [Instr.ramStore, hop, Memory.afterStore_some] at hmem
    exact .inr ⟨rfl, nofun, fun _ => sameRamBut_of_writeWord hmem⟩
  | _ =>
    simp only [Instr.ramStore, hop, Memory.afterStore_none] at hmem
    exact .inl (sameRam_of_mem_eq hmem)

/-! ## Registers -/

/-- An instruction leaves the registers outside the "writes" column of R15. -/
theorem exec_sameRegs {i : Instr} {s t : State} (h : exec i s = .next t) : SameRegs s t i.mayWrite := by
  obtain ⟨c, hexec⟩ := exec_eq_opcodeMeaning i
  rw [hexec] at h
  unfold Instr.mayWrite
  generalize i.fields.opcode = op at h ⊢
  cases op with
  | rot | cmp | reserved24 | reserved25 | reserved26 | reserved27 | reserved28 | reserved29 | reserved30
  | reserved31 => cases h; exact sameRegs_of_regs_eq rfl _
  | str => rcases opStr_cases h with ⟨-, rfl⟩ | ⟨-, rfl⟩ <;> exact sameRegs_of_regs_eq rfl _
  | dly => rcases opDly_cases h with ⟨-, rfl⟩ | ⟨-, rfl⟩ <;> exact sameRegs_of_regs_eq rfl _
  | set | add | sub | mpy | and | or | xor | shf | neg => cases h; exact sameRegs_of_regs_set rfl
  | lod => rcases opLod_cases h with ⟨-, rfl⟩ | ⟨-, rfl⟩ <;> exact sameRegs_of_regs_set rfl
  | div | mod =>
    rcases opDivide_cases h with ⟨-, rfl⟩ | ⟨-, rfl⟩
    · exact sameRegs_of_regs_eq rfl _
    · exact sameRegs_of_regs_set rfl
  | bts | btc | btf =>
    rcases opBit_cases h with ⟨-, rfl⟩ | ⟨-, rfl⟩
    · exact sameRegs_of_regs_set rfl
    · exact sameRegs_of_regs_eq rfl _
  | jmp =>
    rcases opJmp_cases h with ⟨-, rfl⟩ | ⟨-, rfl⟩
    · exact sameRegs_setReg s .pc _
    · exact sameRegs_of_regs_eq rfl _
  | psh => cases h; exact sameRegs_push s _
  | pop => cases h; exact sameRegs_popInto s _
  | cal => cases h; exact sameRegs_push_setReg s _ .pc _
  | djz =>
    have hreg1 : SameRegs s ((s.setReg i.fields.reg1 (sub16 (s.getReg i.fields.reg1) 1#16)).setFlags
        (sub16 (s.getReg i.fields.reg1) 1#16)) [i.fields.reg1, .pc] :=
      (sameRegs_of_regs_set rfl).mono (by simp)
    rcases opDjz_cases h with ⟨-, rfl⟩ | ⟨-, rfl⟩
    · exact hreg1.trans ((sameRegs_setReg _ .pc _).mono (by simp))
    · exact hreg1

/-- Settles O25: the registers by `exec_sameRegs`; no instruction writes IR or the cycle counter. -/
theorem registersWrittenOnlyAsTabulated : Obligations.RegistersWrittenOnlyAsTabulated := by
  intro i s t h
  obtain ⟨u, hu, -, hhidden⟩ := exec_mem i s
  cases hu.symm.trans h
  exact ⟨exec_sameRegs h, hhidden⟩

end Sys2Proof.Machine

/-! What a tick can do (40_fetch_decode_execute_cycle.md R65, R74, R75), and the invariant it keeps (10_state.md R14,
R16). -/

namespace Sys2Proof.Machine

/-! ## The two kinds of tick, inverted -/

/-- A tick is a busy tick, or the end of the tick of the instruction fetched. -/
theorem step_cases {s t : State} (h : step s = .next t) :
    (s.delay ≠ 0 ∧ t = s.busyTick) ∨
    (s.delay = 0 ∧ ∃ u, exec s.fetch.2 s.fetch.1 = .next u ∧ t = u.retire) := by
  by_cases hdelay : s.delay = 0
  · obtain ⟨u, hu, -⟩ := exec_mem s.fetch.2 s.fetch.1
    cases (step_of_exec hdelay hu).symm.trans h
    exact .inr ⟨hdelay, u, hu, rfl⟩
  · cases (step_busy hdelay).symm.trans h
    exact .inl ⟨hdelay, rfl⟩

/-- Settles O13: a busy tick always answers, and so does every instruction. -/
theorem everyTickSucceeds : Obligations.EveryTickSucceeds := by
  intro s
  by_cases hdelay : s.delay = 0
  · obtain ⟨u, hu, -⟩ := exec_mem s.fetch.2 s.fetch.1
    exact ⟨u.retire, step_of_exec hdelay hu⟩
  · exact ⟨s.busyTick, step_busy hdelay⟩

/-- `mask15` and an advance, as the one number of R75. -/
theorem mask15_add_eq_ofNat (a : Word) (n : Nat) :
    mask15 a + BitVec.ofNat 16 n = BitVec.ofNat 16 (a.toNat % 0x8000 + n) := by
  rw [BitVec.ofNat_add, ← toNat_mask15, BitVec.ofNat_toNat, BitVec.setWidth_eq]

/-- The state the fetch leaves to the instruction, off the Words at pc (R66 to R70). -/
theorem State.fetch_state (s : State) :
    s.fetch.1 =
      { s with
        regs := s.regs.set .pc (BitVec.ofNat 16 (s.fetchAddr + if teenyField s.fetchWord1 then 1 else 2))
        ir := s.fetchWord1
        delay := s.delay + if teenyField s.fetchWord1 then 0 else 1 } := by
  rw [State.fetch_eq, State.ramRead_pc, State.fetchAddr, ← mask15_add_eq_ofNat, apply_ite (BitVec.ofNat 16)]

/-- Settles O12: the fetch leaves the state that R75 describes and the instruction of the two Words at pc, and the
end of the tick is `State.retire`. -/
theorem tickRunsDecodedInstruction : Obligations.TickRunsDecodedInstruction := by
  intro s hdelay
  refine ⟨?_, fun t => rfl⟩
  rw [step, if_pos hdelay, State.fetch_instr, State.fetch_state, hdelay, Nat.zero_add]

theorem State.fetch_flags (s : State) : s.fetch.1.flags = s.flags := by rw [State.fetch_state]

theorem State.fetch_cycles (s : State) : s.fetch.1.cycles = s.cycles := by rw [State.fetch_state]

/-- Settles O18: a busy tick leaves the counter, an instruction and its fetch do not write it, and the end of the tick
adds 1. -/
theorem cyclesCountExecutingTicks : Obligations.CyclesCountExecutingTicks := by
  intro s t h
  rcases step_cases h with ⟨hbusy, rfl⟩ | ⟨hready, u, hu, rfl⟩
  · rw [if_neg hbusy, State.busyTick_cycles, Nat.add_zero]
  · obtain ⟨-, -, hcycles⟩ := registersWrittenOnlyAsTabulated _ _ _ hu
    rw [if_pos hready, State.retire_cycles, hcycles, State.fetch_cycles]

/-! ## The invariant -/

theorem State.inv_iff (s : State) :
    s.inv = true ↔ Memory.wf s.mem = true ∧ s.getReg .rz = 0#16 ∧ s.flags.atMostOne = true := by
  simp only [State.inv, Bool.and_eq_true, beq_iff_eq, and_assoc]

/-- Settles O3: RAM is empty, register-zero is 0 and no flag is true. -/
theorem modelInvariantHoldsAtReset : Obligations.ModelInvariantHoldsAtReset :=
  (State.inv_iff _).2 ⟨State.wf_reset, rfl, rfl⟩

/-- Flags that judge a result have at most one true. -/
theorem FlagsJudge.atMostOne {f : Flags} {v : Word} (h : FlagsJudge f v) : f.atMostOne = true := by
  rcases h.exactly_one with rfl | rfl | rfl <;> rfl

theorem exec_atMostOne {i : Instr} {s t : State} (h : exec i s = .next t) (hs : s.flags.atMostOne = true) :
    t.flags.atMostOne = true := by
  rcases onlyListedOpcodesWriteFlags i s t h with hsame | ⟨-, v, hjudge⟩
  · rw [hsame, hs]
  · exact hjudge.atMostOne

/-- Every store of an instruction is inside RAM, so that it keeps the canonical form. -/
theorem exec_wf {i : Instr} {s t : State} (h : exec i s = .next t) (hs : Memory.wf s.mem = true) :
    Memory.wf t.mem = true := by
  obtain ⟨u, hu, hmem, -⟩ := exec_mem i s
  cases hu.symm.trans h
  rw [hmem]
  cases hstore : i.ramStore s with
  | none => exact hs
  | some p => exact Memory.wf_writeWord hs (ramStore_addr_lt hstore) p.2

/-- Settles O15: a busy tick writes the counter alone; an executing one keeps RAM and flags as its instruction does,
and forces register-zero to 0 whatever the instruction wrote there. -/
theorem invariantKeptByEveryTick : Obligations.InvariantKeptByEveryTick := by
  intro s t hinv h
  obtain ⟨hwf, hrz, hflags⟩ := s.inv_iff.1 hinv
  rw [State.inv_iff]
  rcases step_cases h with ⟨-, rfl⟩ | ⟨-, u, hu, rfl⟩
  · exact ⟨hwf, hrz, hflags⟩
  · have hwf' : Memory.wf u.mem = true := exec_wf hu (by rwa [State.fetch_mem])
    have hflags' : u.flags.atMostOne = true := exec_atMostOne hu (by rwa [State.fetch_flags])
    exact ⟨hwf', by rw [State.retire_getReg, if_pos rfl], hflags'⟩

end Sys2Proof.Machine

/-! Runs (70_reset_and_hazards.md): reset after any run (R177), time (R184, R185) and the end of a run (R183). -/

namespace Sys2Proof.Machine

/-! ## Reset after a run -/

theorem Launch.load_of_too_long (before : Option Launch) {image : List Word} (h : ¬ image.length ≤ Config.ramSize) :
    Launch.load before image = .error .imageTooLong := if_neg h

/-- An image that loads is retained, and the state is a `resetState` (R176). -/
theorem Launch.load_eq_ok {before : Option Launch} {image : List Word} {l : Launch}
    (h : Launch.load before image = .ok l) : ∃ s : State, l = ⟨image, s.resetState image⟩ := by
  by_cases hfit : image.length ≤ Config.ramSize
  · obtain ⟨s, hload⟩ := Launch.load_of_fits before hfit
    cases hload.symm.trans h
    exact ⟨s, rfl⟩
  · cases (Launch.load_of_too_long before hfit).symm.trans h

theorem Launch.tick_image {l l' : Launch} (h : l.tick = .ok l') : l'.image = l.image := by
  obtain ⟨t, ht⟩ := everyTickSucceeds l.state
  rw [Launch.tick, ht] at h
  cases h
  rfl

theorem Launch.ticks_image {n : Nat} {l l' : Launch} (h : Launch.ticks n l = .ok l') : l'.image = l.image := by
  induction n generalizing l with
  | zero => cases h; rfl
  | succ n ih =>
    rw [Launch.ticks] at h
    split at h
    next l₁ htick => rw [ih h, Launch.tick_image htick]
    next => cases h

/-- Two `resetState`s of one image differ in the recorded events only. -/
theorem State.resetState_with_events (s t : State) (image : List Word) :
    { s.resetState image with events := (t.resetState image).events } = t.resetState image := rfl

/-- Settles O2: ticks keep the retained image, and load and reset both leave `resetState` of it (decision D25). -/
theorem resetAfterAnyRunMatchesLoad : Obligations.ResetAfterAnyRunMatchesLoad := by
  intro before image l l' n hload hticks
  obtain ⟨s, rfl⟩ := Launch.load_eq_ok hload
  have himage : l'.image = image := Launch.ticks_image hticks
  refine ⟨himage, ?_⟩
  rw [Launch.reset, himage]
  exact State.resetState_with_events l'.state s image

/-! ## Time -/

/-- Settles O16: `core_run_delay`, the induction on the counter. -/
theorem pendingDelayElapses : Obligations.PendingDelayElapses := fun _ => core_run_delay rfl

theorem run_add_of_run (M : Host.Core) {m : Nat} {s t : M.State} (h : M.run m s = .next t) (n : Nat) :
    M.run (m + n) s = M.run n t := by
  induction m generalizing s with
  | zero => cases h; rw [Nat.zero_add]
  | succ m ih =>
    cases hstep : M.step s with
    | next u =>
      rw [run_succ_of_step M hstep] at h
      rw [Nat.add_right_comm, run_succ_of_step M hstep, ih h]
    | fault r | refused r =>
      rw [Host.Core.run, hstep] at h
      cases h

/-- Settles O19, by induction on the instructions: where the untimed run discards the delay left after an instruction,
the timed one serves it in busy ticks, which leave the same state. -/
theorem untimedRunMatchesTimedRun : Obligations.UntimedRunMatchesTimedRun := by
  intro n
  induction n with
  | zero => intro s t _ h; exact ⟨0, Nat.le_refl 0, h⟩
  | succ n ih =>
    intro s t _ h
    obtain ⟨u, hu⟩ := everyTickSucceeds s
    rw [untimedRun, hu] at h
    obtain ⟨m, hnm, hrun⟩ := ih (u.setDelay 0) t rfl h
    refine ⟨u.delay + m + 1, by omega, ?_⟩
    calc Sys2Proof.core.run (u.delay + m + 1) s
        = Sys2Proof.core.run (u.delay + m) u := core_run_succ hu _
      _ = Sys2Proof.core.run m (u.setDelay 0) := run_add_of_run Sys2Proof.core (pendingDelayElapses u) m
      _ = .next t := hrun

/-! ## The end of a run -/

/-- The states agree on registers, flags, RAM and output events. -/
structure SameButTiming (s t : State) : Prop where
  regs : t.regs = s.regs
  flags : t.flags = s.flags
  mem : t.mem = s.mem
  events : t.events = s.events

theorem SameButTiming.trans {s t u : State} (hst : SameButTiming s t) (htu : SameButTiming t u) :
    SameButTiming s u :=
  ⟨htu.regs.trans hst.regs, htu.flags.trans hst.flags, htu.mem.trans hst.mem, htu.events.trans hst.events⟩

/-- The Words at pc are a LONG unconditional jump to pc, and register-zero, which it adds, is 0 (R183). -/
structure State.AtSelfJump (s : State) : Prop where
  word1 : s.fetchWord1 = 0xA920#16
  word2 : s.fetchWord2 = s.getReg .pc
  registerZero : s.getReg .rz = 0#16

theorem State.atSelfJump_of_atEnd {s : State} (h : s.atEnd = true) (hrz : s.getReg .rz = 0#16) :
    s.AtSelfJump := by
  simp only [State.atEnd, Bool.and_eq_true, beq_iff_eq] at h
  obtain ⟨⟨-, hword1⟩, hword2⟩ := h
  exact ⟨hword1, hword2, hrz⟩

theorem SameButTiming.atSelfJump {s t : State} (h : SameButTiming s t) (hs : s.AtSelfJump) : t.AtSelfJump := by
  have hreg : ∀ r, t.getReg r = s.getReg r := fun r => by rw [State.getReg_eq_get, h.regs, State.getReg_eq_get]
  have haddr : t.fetchAddr = s.fetchAddr := by rw [State.fetchAddr, hreg, State.fetchAddr]
  refine ⟨?_, ?_, ?_⟩
  · rw [State.fetchWord1, h.mem, haddr]; exact hs.word1
  · rw [State.fetchWord2, h.mem, haddr, hreg]; exact hs.word2
  · rw [hreg]; exact hs.registerZero

theorem decodeWords_selfJump (w : Word) : decodeWords 0xA920#16 w = .jmpLong .rz .rz false 0#3 (imm16 w) := rfl

/-- A register that holds 0 adds nothing to the second Word of a jump. -/
theorem State.regPlusImm_of_zero {s : State} {r : Reg} (h : s.getReg r = 0#16) (w : Word) :
    s.regPlusImm r (imm16 w) = w := by
  rw [State.regPlusImm, h, BitVec.toNat_ofNat, Nat.zero_mod, Nat.cast_zero, Int.zero_add, trunc16_imm16]

/-- Moving pc away and back, and forcing a register-zero that is 0, leaves the register file. -/
theorem RegFile.set_pc_back {f : RegFile} {p : Word} (hpc : f.get .pc = p) (hrz : f.get .rz = 0#16) (x : Word) :
    ((f.set .pc x).set .pc p).set .rz 0#16 = f := by
  refine RegFile.ext_get _ _ fun r => ?_
  simp only [RegFile.get_set]
  split
  · subst_vars; exact hrz.symm
  · split
    · subst_vars; rfl
    · rfl

/-- A tick at a jump to itself is a busy tick or takes the jump; either changes the two counters and IR at most. -/
theorem step_atSelfJump {s : State} (h : s.AtSelfJump) : ∃ t, step s = .next t ∧ SameButTiming s t := by
  by_cases hdelay : s.delay = 0
  · obtain ⟨hstep, hfinish⟩ := tickRunsDecodedInstruction s hdelay
    rw [h.word1, decodeWords_selfJump] at hstep
    refine ⟨_, hstep.trans ((congrArg finishTick (opJmp_taken .rz 0#3 _ _ rfl)).trans (hfinish _)), ?_⟩
    refine ⟨?regs, rfl, rfl, rfl⟩
    case regs =>
      rw [State.regPlusImm_of_zero (by simpa [State.getReg_eq_get] using h.registerZero), h.word2]
      exact RegFile.set_pc_back rfl h.registerZero _
  · exact ⟨s.busyTick, step_busy hdelay, rfl, rfl, rfl, rfl⟩

theorem run_atSelfJump (n : Nat) {s : State} (h : s.AtSelfJump) :
    ∃ t : State, Sys2Proof.core.run n s = .next t ∧ SameButTiming s t := by
  induction n generalizing s with
  | zero => exact ⟨s, rfl, rfl, rfl, rfl, rfl⟩
  | succ n ih =>
    obtain ⟨u, hu, hsu⟩ := step_atSelfJump h
    obtain ⟨t, ht, hut⟩ := ih (hsu.atSelfJump h)
    exact ⟨t, (core_run_succ hu n).trans ht, hsu.trans hut⟩

/-- Settles O20: the end of a run is a jump to itself, and every tick there, executing or busy, leaves such a state
with the same registers, flags, RAM and events (decision D13). -/
theorem endOfRunIsStable : Obligations.EndOfRunIsStable := by
  intro n s hend hrz
  obtain ⟨t, ht, hsame⟩ := run_atSelfJump n (State.atSelfJump_of_atEnd hend hrz)
  exact ⟨t, ht, sameRegs_of_regs_eq hsame.regs [], hsame.flags, sameRam_of_mem_eq hsame.mem, hsame.events⟩

end Sys2Proof.Machine
